-- ==== Sys2Proof/Word.lean ====
section
/-! DEFINITION. The one width of the machine: every register, address, memory cell and immediate is a byte (R5, R8). -/

namespace Sys2Proof

/-- A stored value: an unsigned integer in 0..255; bit 7 is the most significant (R8). -/
abbrev Byte := BitVec 8

end Sys2Proof
end

