-- ==== Sys2Proof/Syntax.lean ====
section
/-! DEFINITION. The instruction set: one constructor per row of the opcode table (R2, R65). -/

namespace Sys2Proof

/-- An instruction with the operand bytes it uses, as fetched (R64). A register operand is the whole operand byte: an index
in 8..255 is a legal encoding whose execution faults and records that byte (R23), so it is kept, not truncated. -/
inductive Instr where
  /-- Halt (R100). -/
  | hlt
  /-- Load immediate: register `a` receives `b` (R102). -/
  | ldi (a b : Byte)
  /-- Print register `a` (R104). -/
  | prn (a : Byte)
  /-- Multiply register `a` by register `b` (R124). -/
  | mul (a b : Byte)
  /-- Add register `b` to register `a` (R123). -/
  | add (a b : Byte)
  /-- Push register `a` (R143). -/
  | push (a : Byte)
  /-- Pop into register `a` (R144). -/
  | pop (a : Byte)
  /-- Call the address in register `a` (R160). -/
  | call (a : Byte)
  /-- Return (R161). -/
  | ret
  deriving DecidableEq, Repr

end Sys2Proof
end

