-- ==== Sys2Proof/WellFormed.lean ====
section
/-! DEFINITION. What makes an instruction well formed: every operand byte it uses as a register index is in 0..7 (R23). -/

namespace Sys2Proof

/-- The operand bytes an instruction uses as register indices (R23, R64). -/
def Instr.registerOperands : Instr → List Byte
  | .hlt => []
  | .ldi a _ => [a]
  | .prn a => [a]
  | .mul a b => [a, b]
  | .add a b => [a, b]
  | .push a => [a]
  | .pop a => [a]
  | .call a => [a]
  | .ret => []

/-- Every register operand names one of R0..R7 (R23). An ill-formed instruction still decodes; executing it faults. -/
def Instr.wellFormed (i : Instr) : Bool :=
  i.registerOperands.all fun a => decide (a.toNat ≤ 7)

end Sys2Proof
end

