-- ==== Sys2Proof/Decode.lean ====
section
/-! DEFINITION. Decoding by an exact match of the opcode byte (R60 to R68), and the encoder written from the same tables. -/

namespace Sys2Proof

/-- The handler identity that dispatch answers (R66): one per row of the opcode table. -/
inductive Handler where
  | hlt | ldi | prn | mul | add | push | pop | call | ret
  deriving DecidableEq, Repr

/-- `Dispatch(ir)`: the lookup of the whole opcode byte, with the bit patterns of R65's table (R65, R86). -/
def dispatch (ir : Byte) : Option Handler :=
  if ir = 0b00000001#8 then some .hlt
  else if ir = 0b10000010#8 then some .ldi
  else if ir = 0b01000111#8 then some .prn
  else if ir = 0b10100010#8 then some .mul
  else if ir = 0b10100000#8 then some .add
  else if ir = 0b01000101#8 then some .push
  else if ir = 0b01000110#8 then some .pop
  else if ir = 0b01010000#8 then some .call
  else if ir = 0b00010001#8 then some .ret
  else none

/-- `operand_count = ir[7:6]` (R60, R84), computed for every byte, legal or not. -/
def operandCount (ir : Byte) : Nat := (ir >>> 6).toNat

/-- `sets_pc`: true for CALL and RET only, from the dispatch entry and no bit of ir (R66, R89). -/
def Handler.setsPc : Handler → Bool
  | .call => true
  | .ret => true
  | .hlt => false
  | .ldi => false
  | .prn => false
  | .mul => false
  | .add => false
  | .push => false
  | .pop => false

/-- `is_alu`: true for MUL and ADD only (R66). -/
def Handler.isAlu : Handler → Bool
  | .mul => true
  | .add => true
  | .hlt => false
  | .ldi => false
  | .prn => false
  | .push => false
  | .pop => false
  | .call => false
  | .ret => false

/-- The instruction a handler makes of the two operand bytes; an unused byte is dropped (R64, R72). -/
def Handler.assemble (a b : Byte) : Handler → Instr
  | .hlt => .hlt
  | .ldi => .ldi a b
  | .prn => .prn a
  | .mul => .mul a b
  | .add => .add a b
  | .push => .push a
  | .pop => .pop a
  | .call => .call a
  | .ret => .ret

/-- Why bytes are not an instruction. -/
inductive DecodeReject where
  /-- The opcode byte is one of the 247 illegal ones (R67). -/
  | unknownOpcode (ir : Byte)
  /-- Fewer than the three bytes every step fetches (R63) were given to `decodeBytes`. -/
  | truncated
  deriving DecidableEq, Repr

/-- The decoder: opcode byte and both operand bytes, as every step fetches them (R63, R65). -/
def decode (ir a b : Byte) : Except DecodeReject Instr :=
  match dispatch ir with
  | some h => .ok (h.assemble a b)
  | none => .error (.unknownOpcode ir)

/-- The decoder on the bytes that stand at ascending addresses from pc (R61). -/
def decodeBytes : List Byte → Except DecodeReject Instr
  | ir :: a :: b :: _ => decode ir a b
  | _ => .error .truncated

/-- The dispatch table entry of an instruction. -/
def Instr.handler : Instr → Handler
  | .hlt => .hlt
  | .ldi _ _ => .ldi
  | .prn _ => .prn
  | .mul _ _ => .mul
  | .add _ _ => .add
  | .push _ => .push
  | .pop _ => .pop
  | .call _ => .call
  | .ret => .ret

/-- The opcode byte of a handler, from the "hex" column of R65's table. -/
def Handler.opcode : Handler → Byte
  | .hlt => 0x01#8
  | .ldi => 0x82#8
  | .prn => 0x47#8
  | .mul => 0xA2#8
  | .add => 0xA0#8
  | .push => 0x45#8
  | .pop => 0x46#8
  | .call => 0x50#8
  | .ret => 0x11#8

/-- The opcode byte of an instruction: the `ir` of a step that executes it. -/
def Instr.opcode (i : Instr) : Byte := i.handler.opcode

/-- The operand bytes that belong to an instruction, in order (R61, R64). -/
def Instr.operandBytes : Instr → List Byte
  | .hlt => []
  | .ldi a b => [a, b]
  | .prn a => [a]
  | .mul a b => [a, b]
  | .add a b => [a, b]
  | .push a => [a]
  | .pop a => [a]
  | .call a => [a]
  | .ret => []

/-- The length in bytes: `operand_count + 1` (R60). -/
def Instr.length (i : Instr) : Nat := operandCount i.opcode + 1

/-- The encoder: the opcode byte, then the operand bytes, lowest address first (R61, R69). -/
def encode (i : Instr) : List Byte := i.opcode :: i.operandBytes

/-- The decoder on a stream of bytes: the length comes from the first byte alone (R60, R71), and the bytes after the
instruction are answered too. -/
def decodeNext : List Byte → Except DecodeReject (Instr × List Byte)
  | [] => .error .truncated
  | ir :: rest =>
    match dispatch ir with
    | none => .error (.unknownOpcode ir)
    | some h =>
      if rest.length < operandCount ir then .error .truncated
      else .ok (h.assemble (rest.getD 0 0) (rest.getD 1 0), rest.drop (operandCount ir))

/-- The instructions a stream of bytes holds, one after another, at most `fuel` of them. -/
def disassemble : Nat → List Byte → Except DecodeReject (List Instr)
  | _, [] => .ok []
  | 0, _ :: _ => .error .truncated
  | fuel + 1, bytes =>
    match decodeNext bytes with
    | .error r => .error r
    | .ok (i, rest) =>
      match disassemble fuel rest with
      | .error r => .error r
      | .ok is => .ok (i :: is)

/-- Byte `k` of a table word whose bit 0 is the least significant bit of the first byte; bits at or above `nbits` are 0. -/
def tableByte (nbits w k : Nat) : Byte :=
  if 8 * k < nbits then BitVec.ofNat 8 (w / 2 ^ (8 * k)) else 0x00#8

/-- The decoder on a word numbered as the opcode table numbers it. -/
def decodeTableWord (nbits w : Nat) : Option Instr :=
  match decode (tableByte nbits w 0) (tableByte nbits w 1) (tableByte nbits w 2) with
  | .ok i => some i
  | .error _ => none

end Sys2Proof
end

