-- ==== Sys2Proof/Config.lean ====
section
/-! DEFINITION. The implementation parameters of R5, and the one free value of the machine (MEM_INIT). -/

namespace Sys2Proof.Config

/-- `MEMSIZE`: addresses are 0..255 (R5, R40). -/
abbrev memSize : Nat := 256

/-- `PC_RESET`, which is also the entry point (R5, R211). -/
abbrev pcReset : Byte := 0x00#8

/-- `SP_RESET` (R5, R26). -/
abbrev spReset : Byte := 0xF4#8

/-- `CALL_RETURN_OFFSET`: fixed by C1, D3 and R164, not a parameter (R5). -/
abbrev callReturnOffset : Nat := 2

/-- `MEM_INIT` (R54, D14, U8): what the cell at an address holds if the host never loaded it and nothing ever wrote it.
The spec leaves it OPEN, so it is a free value: no proof can learn it, and a claim holds for every choice of it
(log entry 2, safe). -/
opaque memInit : Nat → Byte

/-- `REG_INIT` in `State.reset` (R24, D13). DESIGN CHOICE, unsafe, log entry 1: the spec leaves the value OPEN and the
model names zero for the one reset state it must write down. The host's `Reset` operation takes any value instead. -/
def regInit : Vector Byte 8 := #v[0, 0, 0, 0, 0, 0, 0, 0]

end Sys2Proof.Config
end

