-- ==== Sys2Proof/Machine/State.lean ====
section
/-! DEFINITION. The whole state of the block (R20), its reset value (R210), and the reasons a step could stop (none is raised). -/

namespace Sys2Proof.Machine

/-- STATUS, the sequencer's control state (R27). -/
inductive Status where
  /-- 0: held in reset; the host may load; no step runs. -/
  | reset
  /-- 1: one step runs after another. -/
  | running
  /-- 2: terminal, entered only by executing HLT. -/
  | halted
  /-- 3: terminal, entered by any fatal error. -/
  | faulted
  deriving DecidableEq, Repr

/-- The 2-bit encoding of STATUS (R27). -/
def Status.code : Status → BitVec 2
  | .reset => 0
  | .running => 1
  | .halted => 2
  | .faulted => 3

/-- FAULT_KIND by name (R28, R180; D7: a model should compare kinds by name). Codes 5..7 are never written. -/
inductive FaultKind where
  | noFault
  | unknownOpcode
  | outOfRangeAccess
  | unsupportedAluOp
  | stackCollision
  deriving DecidableEq, Repr

/-- The 3-bit code of FAULT_KIND (R28). -/
def FaultKind.code : FaultKind → BitVec 3
  | .noFault => 0
  | .unknownOpcode => 1
  | .outOfRangeAccess => 2
  | .unsupportedAluOp => 3
  | .stackCollision => 4

/-- FAULT_LOC by name (R28): what was out of range. -/
inductive FaultLoc where
  | nowhere
  | mem
  | reg
  | pc
  deriving DecidableEq, Repr

/-- The 2-bit code of FAULT_LOC (R28). -/
def FaultLoc.code : FaultLoc → BitVec 2
  | .nowhere => 0
  | .mem => 1
  | .reg => 2
  | .pc => 3

/-- The fault record (R28). -/
structure FaultRecord where
  /-- FAULT_KIND. -/
  kind : FaultKind
  /-- FAULT_PC. -/
  pc : Byte
  /-- FAULT_IR. -/
  ir : Byte
  /-- FAULT_LOC. -/
  loc : FaultLoc
  /-- FAULT_VAL, 10-bit two's complement. -/
  val : BitVec 10
  deriving DecidableEq, Repr

/-- All fields 0: the record at reset (R28, R210). -/
def FaultRecord.zero : FaultRecord := ⟨.noFault, 0, 0, .nowhere, 0⟩

/-- Memory: (address, byte) pairs, strictly rising (`Memory.wf`). A listed cell was loaded by the host or written by a step;
an unlisted cell was neither, and reads as the free value MEM_INIT (R48, R54; log entry 2). -/
abbrev Memory := List Host.Cell

/-- The state of the block: exactly R20's table. -/
structure State where
  /-- x[0..7] (R21). -/
  regs : Vector Byte 8
  /-- The address of the instruction being executed or next to execute (R25). -/
  pc : Byte
  /-- The address of the most recently pushed byte (R26). -/
  sp : Byte
  /-- STATUS (R27). -/
  status : Status
  /-- The fault record (R28). -/
  fault : FaultRecord
  /-- STACK_FLOOR, 0..256 (R29). -/
  stackFloor : BitVec 9
  /-- The output log, oldest first (R33). -/
  outputLog : List Byte
  /-- The 256 memory cells (R40). -/
  mem : Memory
  deriving DecidableEq, Repr

/-- Reasons for which a step could end the model's run with no next state. THERE ARE NONE, so this type is empty: every
fault of the spec is TAKEN, as the state with the fault record written and STATUS = FAULTED (R182), and no rule leaves an
instruction without an effect. -/
inductive Fault where
  deriving DecidableEq, Repr

/-- Reasons for which the model could refuse an instruction. -/
inductive Refusal where
  /-- An arm of `exec` that has no meaning yet. No arm raises it. Safe: a refused run proves nothing. -/
  | notModelled (mnemonic : String)
  deriving DecidableEq, Repr

/-- The machine right after reset (R210), with nothing loaded: STATUS = RESET until the host starts it. The registers hold
`Config.regInit` (log entry 1). -/
def State.reset : State where
  regs := Config.regInit
  pc := Config.pcReset
  sp := Config.spReset
  status := .reset
  fault := FaultRecord.zero
  stackFloor := 0
  outputLog := []
  mem := []

end Sys2Proof.Machine
end

