-- ==== Sys2Proof/Machine/Ops.lean ====
section
/-! DEFINITION. The named operations over memory, registers and the stack, taking a fault, and the frame of a step that
every meaning runs in. A fault is taken as a next state; nothing returns from one but the host's Reset (R185). -/

namespace Sys2Proof.Machine

/-- What a step of the core answers. -/
abbrev Outcome := Host.Outcome State Fault Refusal

/-! ### Memory (R40, R41, R48, R54) -/

/-- The byte a cell was loaded with or last written with; `none` where neither ever happened: an unlisted address holds no
value of its own. -/
def Memory.lookup (a : Nat) : Memory → Option Byte
  | [] => none
  | (k, v) :: rest => if a = k then some v else Memory.lookup a rest

/-- `MemRead(a, 1)`: the last write, else the loaded byte, else MEM_INIT(a) (R41, R48, R54). What an unlisted address reads
as is this one definition: the free value `Config.memInit` (log entry 2). -/
def Memory.read (m : Memory) (a : Nat) : Byte :=
  (Memory.lookup a m).getD (Config.memInit a)

/-- `MemWrite(a, 1, v)` (R41): keeps the addresses strictly rising. -/
def Memory.write (a : Nat) (v : Byte) : Memory → Memory
  | [] => [(a, v)]
  | (k, w) :: rest =>
    if a < k then (a, v) :: (k, w) :: rest
    else if a = k then (a, v) :: rest
    else (k, w) :: Memory.write a v rest

/-- The canonical form: addresses strictly rising, all of them cells that exist (R40). An unlisted address holds no value,
so no entry can equal what it holds, and two canonical memories with the same contents are the same list
(`Memory.ext_of_wf`). -/
abbrev Memory.wf (m : Memory) : Prop :=
  m.Pairwise (fun c d => c.1 < d.1) ∧ ∀ c ∈ m, c.1 < Config.memSize

/-! ### Accessors: each piece of state is read and written here -/

/-- `MemRead(a, 1)` (R9). -/
def State.readByte (s : State) (a : Nat) : Byte := Memory.read s.mem a

/-- `MemWrite(a, 1, v)` (R9, R41): sets the cell and changes nothing else. -/
def State.writeByte (s : State) (a : Nat) (v : Byte) : State := { s with mem := Memory.write a v s.mem }

/-- `x[i]` (R9). -/
def State.getReg (s : State) (i : Fin 8) : Byte := s.regs[i]

/-- `x[i] <- v` (R9). -/
def State.setReg (s : State) (i : Fin 8) (v : Byte) : State := { s with regs := s.regs.set i v }

/-- `pc <- t` (R9). -/
def State.setPc (s : State) (t : Byte) : State := { s with pc := t }

/-- `sp <- t` (R9). -/
def State.setSp (s : State) (t : Byte) : State := { s with sp := t }

/-- STATUS <- c (R27). -/
def State.setStatus (s : State) (c : Status) : State := { s with status := c }

/-- STACK_FLOOR <- l (R29): the host's alone. -/
def State.setStackFloor (s : State) (l : BitVec 9) : State := { s with stackFloor := l }

/-- `Emit(v)`: appends v to the output log (R9, R33). -/
def State.emit (s : State) (v : Byte) : State := { s with outputLog := s.outputLog ++ [v] }

/-! ### Faults (R180, R182) -/

/-- What `raise K(loc, val)` carries (R9). -/
structure Raised where
  kind : FaultKind
  loc : FaultLoc
  val : BitVec 10
  deriving DecidableEq, Repr

/-- `raise UnknownOpcode(NONE, 0)` (R86). -/
def Raised.unknownOpcode : Raised := ⟨.unknownOpcode, .nowhere, 0⟩

/-- `raise OutOfRangeAccess(loc, v)`: the exact integer v in 10-bit two's complement (R28, R180). -/
def Raised.outOfRange (loc : FaultLoc) (v : Int) : Raised := ⟨.outOfRangeAccess, loc, BitVec.ofInt 10 v⟩

/-- `raise UnsupportedAluOp(NONE, 0)` (R122). -/
def Raised.unsupportedAluOp : Raised := ⟨.unsupportedAluOp, .nowhere, 0⟩

/-- `raise StackCollision(MEM, v)` (R141). -/
def Raised.stackCollision (v : Int) : Raised := ⟨.stackCollision, .mem, BitVec.ofInt 10 v⟩

/-- Fault entry (R182), the one way a fault is taken: the record is written from the faulting step's pc and opcode byte,
STATUS becomes FAULTED, and nothing else changes. -/
def faultEntry (r : Raised) (ir : Byte) (s : State) : State :=
  { s with fault := ⟨r.kind, s.pc, ir, r.loc, r.val⟩, status := .faulted }

/-- The end of a step (R90): its writes take effect together, or, after a `raise`, none of them does and the fault is
taken from the state the step began with. -/
def settle (ir : Byte) (s : State) : Except Raised State → Outcome
  | .ok t => .next t
  | .error r => .next (faultEntry r ir s)

/-! ### The frame of a step (R82) -/

/-- The bounds checks of the operand fetch: pc + 1, then pc + 2, exact integers, never wrapped (R85, D4). -/
def checkOperandFetch (pc : Byte) : Except Raised Unit :=
  if pc.toNat + 1 > 255 then .error (.outOfRange .mem (pc.toNat + 1))
  else if pc.toNat + 2 > 255 then .error (.outOfRange .mem (pc.toNat + 2))
  else .ok ()

/-- The generic advance from the pc the step began with, by `operand_count + 1`; a next pc past 255 raises (R88, D5). -/
def advance (pc ir : Byte) (t : State) : Except Raised State :=
  let next := pc.toNat + operandCount ir + 1
  if next > 255 then .error (.outOfRange .pc next) else .ok (t.setPc (BitVec.ofNat 8 next))

/-- What follows the handler: nothing for HLT (R91) and for the PC-setting instructions (R89), the generic advance for
every other. -/
def afterHandler (i : Instr) (pc : Byte) (t : State) : Except Raised State :=
  if i.handler = .hlt then .ok t
  else if i.handler.setsPc then .ok t
  else advance pc i.opcode t

/-- One instruction at `s`, given its handler `Execute_h` (R82). The operand-fetch faults are faults of every instruction
(41_basic.md to 44_call_return.md list them under each), so they are checked here as well as by the fetch (log entry 5). -/
def runHandler (i : Instr) (h : State → Except Raised State) (s : State) : Outcome :=
  settle i.opcode s do
    checkOperandFetch s.pc
    let t ← h s
    afterHandler i s.pc t

/-! ### The stack micro-operations (R140 to R142), shared by PUSH, POP, CALL and RET -/

/-- The address a push stores to, `sp - 1`, where the push does not underflow (R141). -/
def pushAddr (s : State) : Nat := s.sp.toNat - 1

/-- `PushByte(v)` (R141): underflow below address 0 is checked before the stack floor, and both before any write. -/
def pushByte (v : Byte) (s : State) : Except Raised State :=
  if s.sp.toNat < 1 then .error (.outOfRange .mem (-1))
  else if pushAddr s < s.stackFloor.toNat then .error (.stackCollision (pushAddr s))
  else .ok ((s.setSp (BitVec.ofNat 8 (pushAddr s))).writeByte (pushAddr s) v)

/-- `PopByte()` (R142): the byte at sp, which a pop does not clear; no check that the stack is non-empty (R146). -/
def popByte (s : State) : Except Raised (Byte × State) :=
  let v := s.readByte s.sp.toNat
  if s.sp.toNat + 1 > 255 then .error (.outOfRange .mem (s.sp.toNat + 1))
  else .ok (v, s.setSp (BitVec.ofNat 8 (s.sp.toNat + 1)))

end Sys2Proof.Machine
end

