-- ==== Sys2Proof/Machine/Operands.lean ====
section
/-! DEFINITION. The two operand forms: a whole byte as a register index, and a whole byte as an immediate (R64). -/

namespace Sys2Proof.Machine

/-- An operand byte as a register index: 8..255 raises with that value (R23). -/
def regIndex (a : Byte) : Except Raised (Fin 8) :=
  if h : a.toNat < 8 then .ok ⟨a.toNat, h⟩ else .error (.outOfRange .reg a.toNat)

/-- An operand byte as an immediate: the whole byte, with no extension, scaling or shift (R64). -/
def immediate (b : Byte) : Byte := b

end Sys2Proof.Machine
end

