-- ==== Sys2Proof/Machine/Flags.lean ====
section
/-! DEFINITION. The hardware has no flags (R30): what an ALU operation leaves behind is its 8-bit value alone. No carry,
overflow or high half of a product is kept anywhere (R121), so this file holds the whole of the ALU's outcome. -/

namespace Sys2Proof.Machine

/-- The one output of the ALU (R120). -/
inductive AluOutput where
  | result (y : Byte)
  | unsupportedAluOp
  deriving DecidableEq, Repr

/-- The ALU (R120, R121): a pure function, total over all inputs, exact on integers and then truncated to 8 bits. -/
def alu (op x y : Byte) : AluOutput :=
  if op = 0xA0#8 then .result (BitVec.ofNat 8 ((x.toNat + y.toNat) % 256))
  else if op = 0xA2#8 then .result (BitVec.ofNat 8 ((x.toNat * y.toNat) % 256))
  else .unsupportedAluOp

/-- The result of an ALU output, or the fault it stands for (R122). -/
def AluOutput.value : AluOutput → Except Raised Byte
  | .result y => .ok y
  | .unsupportedAluOp => .error .unsupportedAluOp

end Sys2Proof.Machine
end

