-- ==== Sys2Proof/Machine/Alu.lean ====
section
/-! DEFINITION. The dispatch mux, ADD and MUL (42_alu.md). -/

namespace Sys2Proof.Machine

/-- The dispatch mux (R122): index a is checked before index b, both registers are read before the write, and `ir` is the
ALU's operation identity. -/
def handleAlu (ir a b : Byte) (s : State) : Except Raised State := do
  let ra ← regIndex a
  let rb ← regIndex b
  let y ← (alu ir (s.getReg ra) (s.getReg rb)).value
  return s.setReg ra y

/-- MUL (R124). -/
def execMul (a b : Byte) (s : State) : Outcome := runHandler (.mul a b) (handleAlu 0xA2#8 a b) s

/-- ADD (R123). -/
def execAdd (a b : Byte) (s : State) : Outcome := runHandler (.add a b) (handleAlu 0xA0#8 a b) s

end Sys2Proof.Machine
end

