-- ==== Sys2Proof/Machine/Basic.lean ====
section
/-! DEFINITION. HLT, LDI and PRN (41_basic.md). -/

namespace Sys2Proof.Machine

/-- `Execute_HLT` (R100). -/
def handleHlt (s : State) : Except Raised State :=
  .ok (s.setStatus .halted)

/-- `Execute_LDI` (R102). -/
def handleLdi (a b : Byte) (s : State) : Except Raised State := do
  let r ← regIndex a
  return s.setReg r (immediate b)

/-- `Execute_PRN` (R104). -/
def handlePrn (a : Byte) (s : State) : Except Raised State := do
  let r ← regIndex a
  return s.emit (s.getReg r)

/-- HLT (R100, R91). -/
def execHlt (s : State) : Outcome := runHandler .hlt handleHlt s

/-- LDI (R102). -/
def execLdi (a b : Byte) (s : State) : Outcome := runHandler (.ldi a b) (handleLdi a b) s

/-- PRN (R104). -/
def execPrn (a : Byte) (s : State) : Outcome := runHandler (.prn a) (handlePrn a) s

end Sys2Proof.Machine
end

