-- ==== Sys2Proof/Machine/CallReturn.lean ====
section
/-! DEFINITION. CALL and RET, the two PC-setting instructions (44_call_return.md). -/

namespace Sys2Proof.Machine

/-- The return address CALL pushes: pc + 2, the address of the next instruction (R160, R164, C1). It fits in a byte
wherever the operand fetch succeeded (R160). -/
def returnAddr (s : State) : Byte := BitVec.ofNat 8 (s.pc.toNat + Config.callReturnOffset)

/-- `Execute_CALL` (R160): the target is read before the push. -/
def handleCall (a : Byte) (s : State) : Except Raised State := do
  let r ← regIndex a
  let target := s.getReg r
  let t ← pushByte (returnAddr s) s
  return t.setPc target

/-- `Execute_RET` (R161). -/
def handleRet (s : State) : Except Raised State := do
  let (v, t) ← popByte s
  return t.setPc v

/-- CALL (R160). -/
def execCall (a : Byte) (s : State) : Outcome := runHandler (.call a) (handleCall a) s

/-- RET (R161). -/
def execRet (s : State) : Outcome := runHandler .ret handleRet s

end Sys2Proof.Machine
end

