-- ==== Sys2Proof/Machine/Stack.lean ====
section
/-! DEFINITION. PUSH and POP (43_stack.md). -/

namespace Sys2Proof.Machine

/-- `Execute_PUSH` (R143). -/
def handlePush (a : Byte) (s : State) : Except Raised State := do
  let r ← regIndex a
  pushByte (s.getReg r) s

/-- `Execute_POP` (R144). -/
def handlePop (a : Byte) (s : State) : Except Raised State := do
  let r ← regIndex a
  let (v, t) ← popByte s
  return t.setReg r v

/-- PUSH (R143). -/
def execPush (a : Byte) (s : State) : Outcome := runHandler (.push a) (handlePush a) s

/-- POP (R144). -/
def execPop (a : Byte) (s : State) : Outcome := runHandler (.pop a) (handlePop a) s

end Sys2Proof.Machine
end

