-- ==== Sys2Proof/Machine/Sequencer.lean ====
section
/-! DEFINITION. The fetch-decode-execute sequencer (40_sequencer.md): fetch, operand fetch, dispatch, and what a step is
while the core is not RUNNING. -/

namespace Sys2Proof.Machine

/-- `ir <- MemRead(pc, 1)`: always in range, so fetch never faults (R83, R92). -/
def State.fetchOpcode (s : State) : Byte := s.readByte s.pc.toNat

/-- Operand a, the byte at pc + 1 (R63). -/
def State.operandA (s : State) : Byte := s.readByte (s.pc.toNat + 1)

/-- Operand b, the byte at pc + 2 (R63). -/
def State.operandB (s : State) : Byte := s.readByte (s.pc.toNat + 2)

/-- The operand fetch, for every opcode, before dispatch (R85). -/
def fetchOperands (s : State) : Except Raised (Byte × Byte) := do
  checkOperandFetch s.pc
  return (s.operandA, s.operandB)

/-- The step of a running core (R82): the operand-fetch faults come before `UnknownOpcode`, and both before the handler. -/
def stepRunning (s : State) : Outcome :=
  match fetchOperands s with
  | .error r => settle s.fetchOpcode s (.error r)
  | .ok (a, b) =>
    match decode s.fetchOpcode a b with
    | .error _ => settle s.fetchOpcode s (.error .unknownOpcode)
    | .ok i => exec i s

/-- A step runs only while STATUS = RUNNING (R81). Otherwise nothing changes: held in RESET no step runs (R27), and HALTED
and FAULTED are left only by Reset (R80, R192, V45). Log entry 3. -/
def sequence (s : State) : Outcome :=
  match s.status with
  | .running => stepRunning s
  | .reset => .next s
  | .halted => .next s
  | .faulted => .next s

/-- Byte `k` of a table word stored at address `a`, where that cell exists. -/
def storeWordByte (nbits w a k : Nat) (s : State) : State :=
  if a + k < Config.memSize then s.writeByte (a + k) (tableByte nbits w k) else s

/-- What the host does so that the next step runs the given instruction: it stores the instruction's three fetched bytes at
pc (R212, step 2) and starts the core (R212, step 4), since a core held in RESET runs no step. Log entry 4. -/
def placeWord (nbits w : Nat) (s : State) : State :=
  let pc := s.pc.toNat
  (storeWordByte nbits w pc 2 (storeWordByte nbits w pc 1 (storeWordByte nbits w pc 0 s))).setStatus .running

end Sys2Proof.Machine
end

