-- ==== Sys2Proof/Machine/Step.lean ====
section
/-! DEFINITION. The step of the core (R81, R82). -/

namespace Sys2Proof.Machine

/-- One step (R81): exactly one instruction, atomically, while STATUS = RUNNING; no change otherwise. -/
def step (s : State) : Host.Outcome State Fault Refusal := sequence s

/-- The state in which the very next step fetches and runs the instruction a table word encodes (log entry 4). -/
def State.withFetchWord (s : State) (nbits w : Nat) : State := placeWord nbits w s

end Sys2Proof.Machine
end

