-- ==== Sys2Proof/Machine/HostText.lean ====
section
/-! DEFINITION. The text forms of the host's side: rendered output (R105), program files (R70), assembly statements (R69).
None of them reaches the core; texts are lists of characters. Log entry 8 names what the rules leave open. -/

namespace Sys2Proof.Machine.HostText

/-! ### Rendered output (R105) -/

/-- One output event: the decimal numeral of v, no sign, no leading zeros, then LF (R105, D17). -/
def renderByte (v : Byte) : List Char := Nat.toDigits 10 v.toNat ++ ['\n']

/-- The rendered text of a run: its lines in output-log order (R105). -/
def renderLog (log : List Byte) : List Char := log.flatMap renderByte

/-! ### Program files (R70) -/

/-- The lines of a text, ended or separated by LF. -/
def lines : List Char → List (List Char)
  | [] => [[]]
  | c :: cs =>
    match lines cs with
    | [] => [[c]]
    | l :: ls => if c = '\n' then [] :: l :: ls else (c :: l) :: ls

/-- Blanks that may stand around a literal, before a comment, or between assembly operands. -/
def isBlank (c : Char) : Bool := c = ' ' ∨ c = '\t' ∨ c = '\r'

/-- A line without its comment and the blanks around what is left. -/
def stripLine (l : List Char) : List Char :=
  (((l.takeWhile (· ≠ '#')).dropWhile isBlank).reverse.dropWhile isBlank).reverse

/-- The value of a numeral in base 2, 10 or 16, most significant digit first; `none` on an empty text or another digit. -/
def digitValue (base : Nat) (c : Char) : Option Nat :=
  let d := if '0' ≤ c ∧ c ≤ '9' then c.toNat - '0'.toNat
    else if 'A' ≤ c ∧ c ≤ 'F' then c.toNat - 'A'.toNat + 10
    else if 'a' ≤ c ∧ c ≤ 'f' then c.toNat - 'a'.toNat + 10
    else base
  if d < base then some d else none

/-- Folds the digits onto a value already read. -/
def numeralFrom (base acc : Nat) : List Char → Option Nat
  | [] => some acc
  | c :: cs => (digitValue base c).bind fun d => numeralFrom base (acc * base + d) cs

/-- A non-empty numeral. -/
def numeral (base : Nat) (cs : List Char) : Option Nat :=
  if cs = [] then none else numeralFrom base 0 cs

/-- A number as a byte, where it fits. -/
def toByte (n : Nat) : Option Byte := if n ≤ 255 then some (BitVec.ofNat 8 n) else none

/-- The image a program file stands for: one byte per non-blank line, an 8-character binary literal (R70); `none` where a
line is neither blank nor such a literal. DESIGN CHOICE (log entry 8): blankness is judged after the comment is stripped, so
a line that holds a comment alone is blank and is skipped; R70 speaks of a comment only after a literal. -/
def imageOfLines : List (List Char) → Option (List Byte)
  | [] => some []
  | l :: ls =>
    let t := stripLine l
    if t = [] then imageOfLines ls
    else if t.length = 8 then
      (numeral 2 t).bind fun n => (imageOfLines ls).map (BitVec.ofNat 8 n :: ·)
    else none

/-- Reading a program file (R70). -/
def parseProgramFile (text : List Char) : Option (List Byte) := imageOfLines (lines text)

/-- A byte as an 8-character pattern, bit 7 on the left (R8). -/
def binaryLiteral (v : Byte) : List Char :=
  [7, 6, 5, 4, 3, 2, 1, 0].map fun k => if v.getLsbD k then '1' else '0'

/-- Writing a program file: one line per byte (R70). -/
def formatProgramFile (image : List Byte) : List Char := image.flatMap fun v => binaryLiteral v ++ ['\n']

/-! ### Assembly statements (R69) -/

/-- The mnemonic of a dispatch entry (R65). -/
def mnemonic : Handler → List Char
  | .hlt => ['H', 'L', 'T']
  | .ldi => ['L', 'D', 'I']
  | .prn => ['P', 'R', 'N']
  | .mul => ['M', 'U', 'L']
  | .add => ['A', 'D', 'D']
  | .push => ['P', 'U', 'S', 'H']
  | .pop => ['P', 'O', 'P']
  | .call => ['C', 'A', 'L', 'L']
  | .ret => ['R', 'E', 'T']

/-- A register, `R` and the digit that is the index byte (R69). -/
def printRegister (a : Byte) : List Char := 'R' :: Nat.toDigits 10 a.toNat

/-- An immediate in decimal (R10, R69). -/
def printImmediate (b : Byte) : List Char := Nat.toDigits 10 b.toNat

/-- The operands of an instruction as text (R64). -/
def printOperands : Instr → List (List Char)
  | .hlt => []
  | .ldi a b => [printRegister a, printImmediate b]
  | .prn a => [printRegister a]
  | .mul a b => [printRegister a, printRegister b]
  | .add a b => [printRegister a, printRegister b]
  | .push a => [printRegister a]
  | .pop a => [printRegister a]
  | .call a => [printRegister a]
  | .ret => []

/-- The canonical comma form (R10, R69, D22). -/
def printStatement (i : Instr) : List Char :=
  match printOperands i with
  | [] => mnemonic i.handler
  | [x] => mnemonic i.handler ++ ' ' :: x
  | x :: y :: _ => mnemonic i.handler ++ ' ' :: x ++ [',', ' '] ++ y

/-- The words of a statement: operands may be separated by a comma or by blanks (R69). -/
def statementWords : List Char → List (List Char)
  | [] => [[]]
  | c :: cs =>
    match statementWords cs with
    | [] => [[c]]
    | w :: ws => if isBlank c ∨ c = ',' then [] :: w :: ws else (c :: w) :: ws

/-- `R0`..`R7` (R69). -/
def readRegister : List Char → Option Byte
  | ['R', c] => (digitValue 8 c).bind toByte
  | _ => none

/-- A decimal number 0..255, or `0b` binary, or `0x` hex (R69). -/
def readImmediate : List Char → Option Byte
  | '0' :: 'b' :: ds => (numeral 2 ds).bind toByte
  | '0' :: 'x' :: ds => (numeral 16 ds).bind toByte
  | ds => (numeral 10 ds).bind toByte

/-- The instruction with a given mnemonic and operand texts, the right number of each kind (R64, R69). -/
def readWords : List (List Char) → Option Instr
  | [['H', 'L', 'T']] => some .hlt
  | [['R', 'E', 'T']] => some .ret
  | [['P', 'R', 'N'], x] => (readRegister x).map .prn
  | [['P', 'U', 'S', 'H'], x] => (readRegister x).map .push
  | [['P', 'O', 'P'], x] => (readRegister x).map .pop
  | [['C', 'A', 'L', 'L'], x] => (readRegister x).map .call
  | [['L', 'D', 'I'], x, y] => (readRegister x).bind fun a => (readImmediate y).map (.ldi a)
  | [['M', 'U', 'L'], x, y] => (readRegister x).bind fun a => (readRegister y).map (.mul a)
  | [['A', 'D', 'D'], x, y] => (readRegister x).bind fun a => (readRegister y).map (.add a)
  | _ => none

/-- Reading one assembly statement (R69). -/
def parseStatement (text : List Char) : Option Instr :=
  readWords ((statementWords text).filter (· ≠ []))

/-- The bytes of an assembly statement: the opcode byte, then its operands (R69). -/
def assembleStatement (text : List Char) : Option (List Byte) := (parseStatement text).map encode

end Sys2Proof.Machine.HostText
end

