-- ==== Sys2Proof/Machine/HostPort.lean ====
section
/-! DEFINITION. The host's side of the block's interface: control, load port, observation (R6, R80, R210 to R215). -/

namespace Sys2Proof.Machine

/-- What the host may do to the core between steps (R214). -/
inductive HostAction where
  /-- `Reset`, with the REG_INIT the registers take: the spec leaves it OPEN, so every value is allowed (R210, D13). -/
  | reset (regInit : Vector Byte 8)
  /-- `Start` (R80). -/
  | start
  /-- Write one memory cell through the load port (R53, R212). -/
  | writeByte (a : Byte) (v : Byte)
  /-- Write STACK_FLOOR through the load port (R29, R212). -/
  | writeStackFloor (l : Nat)
  deriving DecidableEq, Repr

/-- Reset (R210): every piece of state at its reset value, but memory, which reset does not change. -/
def hostReset (regInit : Vector Byte 8) (s : State) : State where
  regs := regInit
  pc := Config.pcReset
  sp := Config.spReset
  status := .reset
  fault := FaultRecord.zero
  stackFloor := 0
  outputLog := []
  mem := s.mem

/-- The effect of a host action (R80, R214); `none` where the table of R214 does not allow it, so that it has no meaning
(log entry 6). `Start` in HALTED or FAULTED changes nothing (R80, V45). -/
def hostAct (act : HostAction) (s : State) : Option State :=
  match act with
  | .reset regInit => some (hostReset regInit s)
  | .start =>
    match s.status with
    | .reset => some (s.setStatus .running)
    | .running => none
    | .halted => some s
    | .faulted => some s
  | .writeByte a v => if s.status = .reset then some (s.writeByte a.toNat v) else none
  | .writeStackFloor l =>
    if s.status = .reset ∧ l ≤ 256 then some (s.setStackFloor (BitVec.ofNat 9 l)) else none

/-- The host's actions in order; `none` as soon as one has no meaning. -/
def hostActs : List HostAction → State → Option State
  | [], s => some s
  | act :: rest, s => (hostAct act s).bind (hostActs rest)

/-- The load-port writes of an image, byte k at address a + k (R212, step 2). -/
def imageWrites (a : Nat) : List Byte → List HostAction
  | [] => []
  | v :: rest => .writeByte (BitVec.ofNat 8 a) v :: imageWrites (a + 1) rest

/-- The boot sequence (R212): Reset, the image at 0.., STACK_FLOOR <- L, Start. An image longer than 256 bytes is refused
and the core is never started. -/
def boot (regInit : Vector Byte 8) (image : List Byte) (s : State) : Option State :=
  if image.length > 256 then none
  else hostActs (.reset regInit :: imageWrites 0 image ++ [.writeStackFloor image.length, .start]) s

/-- The pieces of state the host may ask for. -/
inductive HostItem where
  | registers | pc | sp | memory | status | outputLog | stackFloor | faultRecord
  deriving DecidableEq, Repr

/-- What the host may read in each control state: which reads the block answers. In RESET everything may be read (R214).
STATUS and the fault record are outputs of the block in every state (R6). In HALTED and FAULTED everything may be read (D23,
R192). While RUNNING the host consumes output events (R214). That the host does not use the permission to read memory in
RESET is R53's contract, `memoryContract`. The spec's files differ here: log entry 9 names each point and the model's choice
(DEDUCED, safe). -/
def hostMayRead : Status → HostItem → Bool
  | .reset, _ => true
  | .running, item => item = .outputLog ∨ item = .status ∨ item = .faultRecord
  | .halted, _ => true
  | .faulted, _ => true

/-- Memory as the host reads it: its 256 cells in order (R40). -/
def State.cells (s : State) : List Byte := (List.range Config.memSize).map s.readByte

/-- What a read of one piece of state answers. -/
inductive HostValue where
  | registers (x : Vector Byte 8)
  | byte (v : Byte)
  | bytes (vs : List Byte)
  | status (c : Status)
  | floor (l : BitVec 9)
  | fault (f : FaultRecord)
  deriving DecidableEq, Repr

/-- The value a piece of state holds. -/
def State.hostValue (s : State) : HostItem → HostValue
  | .registers => .registers s.regs
  | .pc => .byte s.pc
  | .sp => .byte s.sp
  | .memory => .bytes s.cells
  | .status => .status s.status
  | .outputLog => .bytes s.outputLog
  | .stackFloor => .floor s.stackFloor
  | .faultRecord => .fault s.fault

/-- A read by the host (R6, R192, R214): it changes no state (R45), and has no meaning where it is not allowed. -/
def hostRead (item : HostItem) (s : State) : Option HostValue :=
  if hostMayRead s.status item then some (s.hostValue item) else none

/-- A use of the memory, by its user. -/
inductive MemoryUse where
  /-- A read or a write by the core. -/
  | core
  /-- A write by the host, through the load port. -/
  | hostWrite
  /-- A read by the host. -/
  | hostRead
  deriving DecidableEq, Repr

/-- The memory contract of R53, which says what is done where R214 says what is allowed: the host writes memory only in
RESET and reads it only in HALTED and FAULTED, and the core uses it only in RUNNING (log entry 9). -/
def memoryContract : Status → MemoryUse → Bool
  | .reset, use => use = .hostWrite
  | .running, use => use = .core
  | .halted, use => use = .hostRead
  | .faulted, use => use = .hostRead

/-- A run has ended when STATUS is HALTED or FAULTED (R215). -/
def State.ended (s : State) : Bool :=
  s.status = .halted ∨ s.status = .faulted

/-- The observation of a run that ended (R215). -/
structure Observation where
  status : Status
  outputLog : List Byte
  regs : Vector Byte 8
  pc : Byte
  sp : Byte
  mem : List Byte
  fault : FaultRecord
  deriving DecidableEq, Repr

/-- The observation the host reads at the end of a run, memory as its 256 cells in order (R214, R215). -/
def State.observation (s : State) : Option Observation :=
  if s.ended then
    some ⟨s.status, s.outputLog, s.regs, s.pc, s.sp, s.cells, s.fault⟩
  else none

end Sys2Proof.Machine
end

