-- ==== Sys2Proof/Safety.lean ====
section
/-! DEFINITION. The terms claims use: the invariant, the faults a step can raise in the order of R184, and runs. -/

namespace Sys2Proof.Machine

/-- A fault record as a fault entry can write it: one of the rows of R180's table, UnsupportedAluOp left out (R125). -/
def FaultRecord.asTabled (f : FaultRecord) : Prop :=
  (f.kind = .unknownOpcode ∧ f.loc = .nowhere ∧ f.val = 0) ∨
  (f.kind = .outOfRangeAccess ∧ f.loc = .mem ∧ (f.val = BitVec.ofInt 10 256 ∨ f.val = BitVec.ofInt 10 (-1))) ∨
  (f.kind = .outOfRangeAccess ∧ f.loc = .reg ∧ 8 ≤ f.val.toNat ∧ f.val.toNat ≤ 255) ∨
  (f.kind = .outOfRangeAccess ∧ f.loc = .pc ∧ f.val = BitVec.ofInt 10 256) ∨
  (f.kind = .stackCollision ∧ f.loc = .mem ∧ f.val.toNat ≤ 254)

/-- The invariant of the machine: memory is canonical, STACK_FLOOR holds 0..256 (R29), and the fault record is zero until a
fault is taken; afterwards it is a row of R180's table (R28), written for the instruction that pc still addresses (R182). -/
structure State.Inv (s : State) : Prop where
  mem_wf : Memory.wf s.mem
  floor_le : s.stackFloor.toNat ≤ 256
  fault_zero : s.status ≠ .faulted → s.fault = FaultRecord.zero
  fault_tabled : s.status = .faulted → s.fault.asTabled
  fault_at_pc : s.status = .faulted → s.fault.pc = s.pc ∧ s.fault.ir = s.fetchOpcode

/-- A check of a step: whether it fails, and what is raised where it does. -/
structure Check where
  fails : Bool
  raised : Raised
  deriving DecidableEq, Repr

/-- Every check of a step in the order of R184, read from the opcode byte and the operand bytes at pc, independently of the
handlers. Item 6, `UnsupportedAluOp`, is unreachable (R125): no opcode reaches it. -/
def stepChecks (s : State) : List Check :=
  let pc := s.pc.toNat
  let ir := s.readByte pc
  let a := (s.readByte (pc + 1)).toNat
  let b := (s.readByte (pc + 2)).toNat
  let sp := s.sp.toNat
  [⟨pc + 1 > 255, .outOfRange .mem (pc + 1)⟩,
   ⟨pc + 2 > 255, .outOfRange .mem (pc + 2)⟩,
   ⟨ir ∉ [0x01#8, 0x82#8, 0x47#8, 0xA2#8, 0xA0#8, 0x45#8, 0x46#8, 0x50#8, 0x11#8], .unknownOpcode⟩,
   ⟨ir ∈ [0x82#8, 0x47#8, 0xA2#8, 0xA0#8, 0x45#8, 0x46#8, 0x50#8] ∧ a > 7, .outOfRange .reg a⟩,
   ⟨ir ∈ [0xA2#8, 0xA0#8] ∧ b > 7, .outOfRange .reg b⟩,
   ⟨ir ∈ [0x45#8, 0x50#8] ∧ sp = 0, .outOfRange .mem (-1)⟩,
   ⟨ir ∈ [0x46#8, 0x11#8] ∧ sp = 255, .outOfRange .mem 256⟩,
   ⟨ir ∈ [0x45#8, 0x50#8] ∧ sp - 1 < s.stackFloor.toNat, .stackCollision (sp - 1 : Nat)⟩,
   ⟨ir ∈ [0x82#8, 0xA2#8, 0xA0#8] ∧ pc + 3 > 255, .outOfRange .pc (pc + 3)⟩]

/-- What a step raises: the first check that fails (R184); `none` where every check passes. -/
def firstFault (s : State) : Option Raised :=
  ((stepChecks s).find? (·.fails)).map (·.raised)

/-- A step that is safe to take: a running core none of whose checks fails (R213). -/
def State.safeStep (s : State) : Bool := s.status = .running ∧ firstFault s = none

/-- `k` steps from `s` answer `t`. -/
abbrev runsTo (k : Nat) (s t : State) : Prop := Sys2Proof.core.run k s = .next t

/-- The end of a run (R215): the first state, counted from the start, in which STATUS is HALTED or FAULTED. -/
def endsAt (k : Nat) (s t : State) : Prop :=
  runsTo k s t ∧ t.ended = true ∧ ∀ j u, j < k → runsTo j s u → u.ended = false

/-- Bytes pushed one after another, stopping at the first push that raises (R147). -/
def pushAll : List Byte → State → Except Raised State
  | [], s => .ok s
  | v :: rest, s => (pushByte v s).bind (pushAll rest)

end Sys2Proof.Machine

namespace Sys2Proof

/-- The address an instruction stores to, where it stores: CALL and PUSH store one byte at `pushAddr` (R42). -/
def Instr.storeAddr (s : Machine.State) : Instr → Option Nat
  | .push _ => some (Machine.pushAddr s)
  | .call _ => some (Machine.pushAddr s)
  | .hlt => none
  | .ldi _ _ => none
  | .prn _ => none
  | .mul _ _ => none
  | .add _ _ => none
  | .pop _ => none
  | .ret => none

/-- The registers an instruction reads, the "reads" column of R22. -/
def Instr.registersRead : Instr → List Byte
  | .hlt => []
  | .ldi _ _ => []
  | .prn a => [a]
  | .mul a b => [a, b]
  | .add a b => [a, b]
  | .push a => [a]
  | .pop _ => []
  | .call a => [a]
  | .ret => []

/-- The registers an instruction writes, the "writes" column of R22. -/
def Instr.registersWritten : Instr → List Byte
  | .hlt => []
  | .ldi a _ => [a]
  | .prn _ => []
  | .mul a _ => [a]
  | .add a _ => [a]
  | .push _ => []
  | .pop a => [a]
  | .call _ => []
  | .ret => []

end Sys2Proof
end

