-- ==== Sys2Proof/Certificates/Slice0/Obligations.lean ====
section
/-! DEFINITION. The statements for the provers. Each formalises the rules of the spec its docstring names. -/

open Sys2Proof Sys2Proof.Machine

/-! ### Encoding (30_encoding.md) -/

/-- R65: the nine bit patterns, each with its operand count, its ALU column and its sets-pc column; no other byte decodes. -/
def Obligations.OpcodeTableRows : Prop :=
  (∀ row ∈ [(0b00000001#8, Handler.hlt, 0, false, false), (0b10000010#8, Handler.ldi, 2, false, false),
      (0b01000111#8, Handler.prn, 1, false, false), (0b10100010#8, Handler.mul, 2, true, false),
      (0b10100000#8, Handler.add, 2, true, false), (0b01000101#8, Handler.push, 1, false, false),
      (0b01000110#8, Handler.pop, 1, false, false), (0b01010000#8, Handler.call, 1, false, true),
      (0b00010001#8, Handler.ret, 0, false, true)],
    dispatch row.1 = some row.2.1 ∧ operandCount row.1 = row.2.2.1 ∧ row.2.1.isAlu = row.2.2.2.1 ∧
      row.2.1.setsPc = row.2.2.2.2) ∧
  (∀ a b : Byte,
    decode 0b00000001#8 a b = .ok .hlt ∧ decode 0b10000010#8 a b = .ok (.ldi a b) ∧
    decode 0b01000111#8 a b = .ok (.prn a) ∧ decode 0b10100010#8 a b = .ok (.mul a b) ∧
    decode 0b10100000#8 a b = .ok (.add a b) ∧ decode 0b01000101#8 a b = .ok (.push a) ∧
    decode 0b01000110#8 a b = .ok (.pop a) ∧ decode 0b01010000#8 a b = .ok (.call a) ∧
    decode 0b00010001#8 a b = .ok .ret) ∧
  (∀ (ir a b : Byte) (i : Instr), decode ir a b = .ok i →
    ir ∈ [0x01#8, 0x82#8, 0x47#8, 0xA2#8, 0xA0#8, 0x45#8, 0x46#8, 0x50#8, 0x11#8])

/-- R67, R86: the bytes of R67's list, all 247 of them, are exactly the ones the decoder rejects, and executing one raises
`UnknownOpcode(NONE, 0)` after the operand fetch, with the byte itself as FAULT_IR. -/
def Obligations.IllegalBytesFault : Prop :=
  (∀ ir a b : Byte, decode ir a b = .error (.unknownOpcode ir) ↔
    ∃ range ∈ [(0x00, 0x00), (0x02, 0x10), (0x12, 0x44), (0x48, 0x4F), (0x51, 0x81), (0x83, 0x9F), (0xA1, 0xA1), (0xA3, 0xFF)],
      range.1 ≤ ir.toNat ∧ ir.toNat ≤ range.2) ∧
  ((List.range 256).filter fun n => (dispatch (BitVec.ofNat 8 n)).isNone).length = 247 ∧
  (∀ s : State, s.status = .running → s.pc.toNat ≤ 253 → dispatch (s.readByte s.pc.toNat) = none →
    step s = .next { s with
      status := .faulted, fault := ⟨.unknownOpcode, s.pc, s.readByte s.pc.toNat, .nowhere, 0⟩ })

/-- R60: the length is the opcode's top two bits plus one, it is the number of bytes the encoder writes, and for the nine
instructions it is 1 (HLT, RET), 2 (PRN, PUSH, POP, CALL) or 3 (LDI, MUL, ADD). -/
def Obligations.LengthFromTopBits : Prop :=
  (∀ i : Instr, i.length = i.opcode.toNat / 64 + 1 ∧ (encode i).length = i.length) ∧
  (∀ a b : Byte, Instr.hlt.length = 1 ∧ Instr.ret.length = 1 ∧ (Instr.prn a).length = 2 ∧ (Instr.push a).length = 2 ∧
    (Instr.pop a).length = 2 ∧ (Instr.call a).length = 2 ∧ (Instr.ldi a b).length = 3 ∧ (Instr.mul a b).length = 3 ∧
    (Instr.add a b).length = 3)

/-- Decode and encode agree, in both directions, for every instruction and every operand byte. The fetch window is three bytes
wide and an instruction may be shorter, so whatever two bytes follow the encoding, the window decodes to the instruction
(R61, R63, R72); and bytes that decode are the encoding of what they decode to, up to its length. -/
def Obligations.DecodeEncodeRoundTrip : Prop :=
  (∀ (i : Instr) (x y : Byte), decodeBytes (encode i ++ [x, y]) = .ok i) ∧
  (∀ (ir a b : Byte) (i : Instr), decode ir a b = .ok i → encode i = [ir, a, b].take i.length)

/-- Encodings follow one another without ambiguity (R60, R71): the bytes of any sequence of instructions, placed one after
another, disassemble to that sequence and no other. -/
def Obligations.InstructionStreamsAreUnambiguous : Prop :=
  (∀ (is : List Instr) (fuel : Nat), is.length ≤ fuel → disassemble fuel (is.flatMap encode) = .ok is) ∧
  (∀ is js : List Instr, is.flatMap encode = js.flatMap encode → is = js)

/-- A step runs the instruction whose encoding stands in memory at pc, whatever stands after it (R61, R82). -/
def Obligations.EncodedInstructionRuns : Prop :=
  ∀ (s : State) (i : Instr), s.status = .running → s.pc.toNat ≤ 253 →
    (∀ k (h : k < (encode i).length), s.readByte (s.pc.toNat + k) = (encode i)[k]) → step s = exec i s

/-- R72, at the decoder: an operand byte the opcode's operand count does not cover plays no part in decoding. -/
def Obligations.UnusedOperandBytesIgnored : Prop :=
  (∀ ir a b b' : Byte, operandCount ir = 1 → decode ir a b = decode ir a b') ∧
  (∀ ir a b a' b' : Byte, operandCount ir = 0 → decode ir a b = decode ir a' b')

/-! ### The ALU (42_alu.md) -/

/-- R121: the ALU, total over all inputs: the sum or the product modulo 256, and the error for every other operation. -/
def Obligations.AluFunction : Prop :=
  ∀ op x y : Byte,
    (op = 0xA0#8 → ∃ z, alu op x y = .result z ∧ z.toNat = (x.toNat + y.toNat) % 256) ∧
    (op = 0xA2#8 → ∃ z, alu op x y = .result z ∧ z.toNat = (x.toNat * y.toNat) % 256) ∧
    (op ≠ 0xA0#8 → op ≠ 0xA2#8 → alu op x y = .unsupportedAluOp)

/-- R126: both operations always answer a result, the exact sum or product wrapped modulo 256, with no trap and no
saturation; both are commutative and associative modulo 256, and MUL distributes over ADD; there is no other operation. -/
def Obligations.AluLaws : Prop :=
  (∀ op ∈ [0xA0#8, 0xA2#8], ∀ x y z p q : Byte,
    (∃ r, alu op x y = .result r) ∧ alu op x y = alu op y x ∧
    (alu op x y = .result p → alu op y z = .result q → alu op p z = alu op x q)) ∧
  (∀ x y z p q r : Byte, alu 0xA0#8 y z = .result p → alu 0xA2#8 x y = .result q → alu 0xA2#8 x z = .result r →
    alu 0xA2#8 x p = alu 0xA0#8 q r) ∧
  (∀ x y r : Byte, (alu 0xA0#8 x y = .result r → r.toNat = (x.toNat + y.toNat) % 256) ∧
    (alu 0xA2#8 x y = .result r → r.toNat = (x.toNat * y.toNat) % 256)) ∧
  (∀ op x y r : Byte, alu op x y = .result r → op = 0xA0#8 ∨ op = 0xA2#8)

/-- R125: no step ever records `UnsupportedAluOp`, whatever the program, though the ALU still answers it for every operation
but ADD and MUL. Dispatch sends only those two to the ALU, and a byte with no entry faults before any ALU is involved. -/
def Obligations.UnsupportedAluOpNeverRecorded : Prop :=
  (∀ s t : State, s.fault.kind ≠ .unsupportedAluOp → step s = .next t → t.fault.kind ≠ .unsupportedAluOp) ∧
  (∀ (op : Byte) (h : Handler), dispatch op = some h → (h.isAlu = true ↔ op = 0xA0#8 ∨ op = 0xA2#8)) ∧
  (∀ op x y : Byte, (∀ h, dispatch op = some h → h.isAlu = false) → alu op x y = .unsupportedAluOp) ∧
  (∀ s : State, s.status = .running → s.pc.toNat ≤ 253 → dispatch (s.readByte s.pc.toNat) = none →
    step s = .next (faultEntry .unknownOpcode (s.readByte s.pc.toNat) s))

/-! ### The nine instructions: encoding, effect with its frame, faults in the order they are tested

In each, the clause with `s.pc.toNat ≤ 252` or `≤ 253` is the instruction's completion: its own effect, with every other
piece of state unchanged. -/

/-- R100, HLT. -/
def Obligations.HltRule : Prop :=
  (∀ a b : Byte, decode 0b00000001#8 a b = .ok .hlt) ∧
  (∀ s : State, s.pc.toNat ≤ 253 → exec .hlt s = .next { s with status := .halted } ∧
    step { s with status := .halted } = .next { s with status := .halted }) ∧
  (∀ s : State, 254 ≤ s.pc.toNat → exec .hlt s = .next (faultEntry (.outOfRange .mem 256) 0x01#8 s)) ∧
  (∀ s t : State, s.status ≠ .halted → step s = .next t → t.status = .halted →
    s.status = .running ∧ s.pc.toNat ≤ 253 ∧ s.readByte s.pc.toNat = 0x01#8)

/-- R102, LDI. -/
def Obligations.LdiRule : Prop :=
  ∀ (a b : Byte) (s : State),
    decode 0b10000010#8 a b = .ok (.ldi a b) ∧
    (∀ r : Fin 8, a.toNat = r.val → s.pc.toNat ≤ 252 →
      exec (.ldi a b) s = .next { s with regs := s.regs.set r b, pc := BitVec.ofNat 8 (s.pc.toNat + 3) }) ∧
    (254 ≤ s.pc.toNat → exec (.ldi a b) s = .next (faultEntry (.outOfRange .mem 256) 0x82#8 s)) ∧
    (s.pc.toNat ≤ 253 → 7 < a.toNat →
      exec (.ldi a b) s = .next (faultEntry (.outOfRange .reg a.toNat) 0x82#8 s)) ∧
    (s.pc.toNat = 253 → a.toNat ≤ 7 → exec (.ldi a b) s = .next (faultEntry (.outOfRange .pc 256) 0x82#8 s))

/-- R104, PRN. -/
def Obligations.PrnRule : Prop :=
  ∀ (a : Byte) (s : State),
    (∀ b : Byte, decode 0b01000111#8 a b = .ok (.prn a)) ∧
    (∀ r : Fin 8, a.toNat = r.val → s.pc.toNat ≤ 253 →
      exec (.prn a) s = .next { s with
        outputLog := s.outputLog ++ [s.regs[r]], pc := BitVec.ofNat 8 (s.pc.toNat + 2) }) ∧
    (254 ≤ s.pc.toNat → exec (.prn a) s = .next (faultEntry (.outOfRange .mem 256) 0x47#8 s)) ∧
    (s.pc.toNat ≤ 253 → 7 < a.toNat → exec (.prn a) s = .next (faultEntry (.outOfRange .reg a.toNat) 0x47#8 s))

/-- R123, ADD; a source that is also the destination is read before it is written. -/
def Obligations.AddRule : Prop :=
  ∀ (a b : Byte) (s : State),
    decode 0b10100000#8 a b = .ok (.add a b) ∧
    (∀ r q : Fin 8, a.toNat = r.val → b.toNat = q.val → s.pc.toNat ≤ 252 →
      exec (.add a b) s = .next { s with
        regs := s.regs.set r (BitVec.ofNat 8 ((s.regs[r].toNat + s.regs[q].toNat) % 256)),
        pc := BitVec.ofNat 8 (s.pc.toNat + 3) }) ∧
    (254 ≤ s.pc.toNat → exec (.add a b) s = .next (faultEntry (.outOfRange .mem 256) 0xA0#8 s)) ∧
    (s.pc.toNat ≤ 253 → 7 < a.toNat → exec (.add a b) s = .next (faultEntry (.outOfRange .reg a.toNat) 0xA0#8 s)) ∧
    (s.pc.toNat ≤ 253 → a.toNat ≤ 7 → 7 < b.toNat →
      exec (.add a b) s = .next (faultEntry (.outOfRange .reg b.toNat) 0xA0#8 s)) ∧
    (s.pc.toNat = 253 → a.toNat ≤ 7 → b.toNat ≤ 7 →
      exec (.add a b) s = .next (faultEntry (.outOfRange .pc 256) 0xA0#8 s))

/-- R124, MUL: the low 8 bits of the unsigned product. -/
def Obligations.MulRule : Prop :=
  ∀ (a b : Byte) (s : State),
    decode 0b10100010#8 a b = .ok (.mul a b) ∧
    (∀ r q : Fin 8, a.toNat = r.val → b.toNat = q.val → s.pc.toNat ≤ 252 →
      exec (.mul a b) s = .next { s with
        regs := s.regs.set r (BitVec.ofNat 8 ((s.regs[r].toNat * s.regs[q].toNat) % 256)),
        pc := BitVec.ofNat 8 (s.pc.toNat + 3) }) ∧
    (254 ≤ s.pc.toNat → exec (.mul a b) s = .next (faultEntry (.outOfRange .mem 256) 0xA2#8 s)) ∧
    (s.pc.toNat ≤ 253 → 7 < a.toNat → exec (.mul a b) s = .next (faultEntry (.outOfRange .reg a.toNat) 0xA2#8 s)) ∧
    (s.pc.toNat ≤ 253 → a.toNat ≤ 7 → 7 < b.toNat →
      exec (.mul a b) s = .next (faultEntry (.outOfRange .reg b.toNat) 0xA2#8 s)) ∧
    (s.pc.toNat = 253 → a.toNat ≤ 7 → b.toNat ≤ 7 →
      exec (.mul a b) s = .next (faultEntry (.outOfRange .pc 256) 0xA2#8 s))

/-- R143, PUSH: the byte lands at the decremented sp, and every other byte of memory reads as before. -/
def Obligations.PushRule : Prop :=
  ∀ (a : Byte) (s : State),
    (∀ b : Byte, decode 0b01000101#8 a b = .ok (.push a)) ∧
    (∀ r : Fin 8, a.toNat = r.val → s.pc.toNat ≤ 253 → 1 ≤ s.sp.toNat → s.stackFloor.toNat ≤ s.sp.toNat - 1 →
      ∃ t, exec (.push a) s = .next t ∧ t.sp.toNat = s.sp.toNat - 1 ∧ t.readByte t.sp.toNat = s.regs[r] ∧
        (∀ n, n ≠ s.sp.toNat - 1 → t.readByte n = s.readByte n) ∧ t.pc.toNat = s.pc.toNat + 2 ∧
        t.regs = s.regs ∧ t.status = s.status ∧ t.fault = s.fault ∧ t.stackFloor = s.stackFloor ∧
        t.outputLog = s.outputLog) ∧
    (254 ≤ s.pc.toNat → exec (.push a) s = .next (faultEntry (.outOfRange .mem 256) 0x45#8 s)) ∧
    (s.pc.toNat ≤ 253 → 7 < a.toNat → exec (.push a) s = .next (faultEntry (.outOfRange .reg a.toNat) 0x45#8 s)) ∧
    (s.pc.toNat ≤ 253 → a.toNat ≤ 7 → s.sp.toNat = 0 →
      exec (.push a) s = .next (faultEntry (.outOfRange .mem (-1)) 0x45#8 s)) ∧
    (s.pc.toNat ≤ 253 → a.toNat ≤ 7 → 1 ≤ s.sp.toNat → s.sp.toNat - 1 < s.stackFloor.toNat →
      exec (.push a) s = .next (faultEntry (.stackCollision (s.sp.toNat - 1 : Nat)) 0x45#8 s))

/-- R144, POP: a pop does not clear the cell, and the stack is not checked for being empty. -/
def Obligations.PopRule : Prop :=
  ∀ (a : Byte) (s : State),
    (∀ b : Byte, decode 0b01000110#8 a b = .ok (.pop a)) ∧
    (∀ r : Fin 8, a.toNat = r.val → s.pc.toNat ≤ 253 → s.sp.toNat ≤ 254 →
      exec (.pop a) s = .next { s with
        regs := s.regs.set r (s.readByte s.sp.toNat), sp := BitVec.ofNat 8 (s.sp.toNat + 1),
        pc := BitVec.ofNat 8 (s.pc.toNat + 2) }) ∧
    (254 ≤ s.pc.toNat → exec (.pop a) s = .next (faultEntry (.outOfRange .mem 256) 0x46#8 s)) ∧
    (s.pc.toNat ≤ 253 → 7 < a.toNat → exec (.pop a) s = .next (faultEntry (.outOfRange .reg a.toNat) 0x46#8 s)) ∧
    (s.pc.toNat ≤ 253 → a.toNat ≤ 7 → s.sp.toNat = 255 →
      exec (.pop a) s = .next (faultEntry (.outOfRange .mem 256) 0x46#8 s))

/-- R160, CALL: the address of the next instruction, pc + 2, is pushed, and pc becomes the register's value. -/
def Obligations.CallRule : Prop :=
  ∀ (a : Byte) (s : State),
    (∀ b : Byte, decode 0b01010000#8 a b = .ok (.call a)) ∧
    (∀ r : Fin 8, a.toNat = r.val → s.pc.toNat ≤ 253 → 1 ≤ s.sp.toNat → s.stackFloor.toNat ≤ s.sp.toNat - 1 →
      ∃ t, exec (.call a) s = .next t ∧ t.sp.toNat = s.sp.toNat - 1 ∧
        (t.readByte t.sp.toNat).toNat = s.pc.toNat + 2 ∧
        (∀ n, n ≠ s.sp.toNat - 1 → t.readByte n = s.readByte n) ∧ t.pc = s.regs[r] ∧
        t.regs = s.regs ∧ t.status = s.status ∧ t.fault = s.fault ∧ t.stackFloor = s.stackFloor ∧
        t.outputLog = s.outputLog) ∧
    (254 ≤ s.pc.toNat → exec (.call a) s = .next (faultEntry (.outOfRange .mem 256) 0x50#8 s)) ∧
    (s.pc.toNat ≤ 253 → 7 < a.toNat → exec (.call a) s = .next (faultEntry (.outOfRange .reg a.toNat) 0x50#8 s)) ∧
    (s.pc.toNat ≤ 253 → a.toNat ≤ 7 → s.sp.toNat = 0 →
      exec (.call a) s = .next (faultEntry (.outOfRange .mem (-1)) 0x50#8 s)) ∧
    (s.pc.toNat ≤ 253 → a.toNat ≤ 7 → 1 ≤ s.sp.toNat → s.sp.toNat - 1 < s.stackFloor.toNat →
      exec (.call a) s = .next (faultEntry (.stackCollision (s.sp.toNat - 1 : Nat)) 0x50#8 s))

/-- R161, RET: the top byte of the stack, whatever stored it, becomes pc. -/
def Obligations.RetRule : Prop :=
  (∀ a b : Byte, decode 0b00010001#8 a b = .ok .ret) ∧
  ∀ s : State,
    (s.pc.toNat ≤ 253 → s.sp.toNat ≤ 254 →
      exec .ret s = .next { s with pc := s.readByte s.sp.toNat, sp := BitVec.ofNat 8 (s.sp.toNat + 1) }) ∧
    (254 ≤ s.pc.toNat → exec .ret s = .next (faultEntry (.outOfRange .mem 256) 0x11#8 s)) ∧
    (s.pc.toNat ≤ 253 → s.sp.toNat = 255 → exec .ret s = .next (faultEntry (.outOfRange .mem 256) 0x11#8 s))

/-! ### Frames over all nine instructions -/

/-- R22: an instruction leaves every register unchanged but those of its "writes" column, and a register outside its "reads"
column has no influence: with that register set to any value, the result differs in that register at most, and where the
instruction commits and writes it, not even there. -/
def Obligations.RegistersReadAndWritten : Prop :=
  (∀ (i : Instr) (s t : State) (r : Fin 8), exec i s = .next t → BitVec.ofNat 8 r.val ∉ i.registersWritten →
    t.getReg r = s.getReg r) ∧
  (∀ (i : Instr) (s t u : State) (r : Fin 8) (v : Byte), BitVec.ofNat 8 r.val ∉ i.registersRead →
    exec i s = .next t → exec i (s.setReg r v) = .next u →
    u.setReg r 0 = t.setReg r 0 ∧
      (BitVec.ofNat 8 r.val ∈ i.registersWritten → s.status ≠ .faulted → t.status ≠ .faulted → u.getReg r = t.getReg r))

/-- Memory's frame (R42): where an instruction stores, at the address `Instr.storeAddr` computes with the push's own
`pushAddr`, every other address reads as before; where it stores nothing, every address does; and a step that faults
stores nothing. -/
def Obligations.MemoryFrame : Prop :=
  ∀ (i : Instr) (s t : State), exec i s = .next t →
    (∀ a, i.storeAddr s = some a → ∀ n, n ≠ a → t.readByte n = s.readByte n) ∧
    (i.storeAddr s = none → ∀ n, t.readByte n = s.readByte n) ∧
    (s.status ≠ .faulted → t.status = .faulted → ∀ n, t.readByte n = s.readByte n)

/-- The frame of the other state: no instruction writes STACK_FLOOR (R29); only PUSH, POP, CALL and RET move sp (R26); only
PRN appends output (R33); STATUS changes only by HLT or a fault, and the fault record only by a fault (R27, R28). -/
def Obligations.ControlFrame : Prop :=
  ∀ (i : Instr) (s t : State), exec i s = .next t →
    t.stackFloor = s.stackFloor ∧
    (i.handler ∉ [Handler.push, Handler.pop, Handler.call, Handler.ret] → t.sp = s.sp) ∧
    (i.handler ≠ Handler.prn → t.outputLog = s.outputLog) ∧
    (t.status ≠ .faulted → t.fault = s.fault) ∧
    (t.status ≠ .faulted → i ≠ .hlt → t.status = s.status) ∧
    (t.status ≠ .faulted → i = .hlt → t.status = .halted)

/-- R23: the first register operand above 7 raises with its value; a byte that is no register operand is never checked, so a
well-formed instruction raises no REG fault. -/
def Obligations.RegisterIndexChecked : Prop :=
  (∀ (i : Instr) (s : State) (v : Byte), s.pc.toNat ≤ 253 → i.registerOperands.find? (fun a => 7 < a.toNat) = some v →
    exec i s = .next (faultEntry (.outOfRange .reg v.toNat) i.opcode s)) ∧
  (∀ (i : Instr) (s t : State), i.wellFormed = true → s.fault.loc ≠ .reg → exec i s = .next t → t.fault.loc ≠ .reg)

/-! ### The sequencer (40_sequencer.md) -/

/-- A step of a running core is `exec` of the instruction that the three bytes at pc decode to (R82, R87). -/
def Obligations.StepRunsDecoded : Prop :=
  ∀ (s : State) (i : Instr), s.status = .running → s.pc.toNat ≤ 253 →
    decode (s.readByte s.pc.toNat) (s.readByte (s.pc.toNat + 1)) (s.readByte (s.pc.toNat + 2)) = .ok i →
    step s = exec i s

/-- No step runs outside RUNNING (R81, V45): nothing changes. In RESET this is the model's reading (log entry 3). -/
def Obligations.StepIdleUnlessRunning : Prop :=
  ∀ s : State, s.status ≠ .running → step s = .next s

/-- R85: at pc 254 and 255 every step faults in the operand fetch, whatever the opcode; at pc 253 or below the operand fetch
faults no step. -/
def Obligations.OperandFetchFault : Prop :=
  (∀ s : State, s.status = .running → 254 ≤ s.pc.toNat →
    step s = .next (faultEntry (.outOfRange .mem 256) (s.readByte s.pc.toNat) s)) ∧
  (∀ s : State, s.pc.toNat ≤ 253 →
    fetchOperands s = .ok (s.readByte (s.pc.toNat + 1), s.readByte (s.pc.toNat + 2)))

/-- R88, R93: a committed step of any instruction but HLT, CALL and RET adds exactly its length to pc, 3 for LDI, MUL and
ADD; the next-pc fault happens exactly for a well-formed 3-byte instruction at pc 253, and commits nothing. -/
def Obligations.GenericAdvance : Prop :=
  ∀ (s t : State) (i : Instr), s.status = .running → s.pc.toNat ≤ 253 →
    decode (s.readByte s.pc.toNat) (s.readByte (s.pc.toNat + 1)) (s.readByte (s.pc.toNat + 2)) = .ok i →
    i.handler ∉ [Handler.hlt, Handler.call, Handler.ret] → step s = .next t →
    (t.status = .running → t.pc.toNat = s.pc.toNat + operandCount (s.readByte s.pc.toNat) + 1 ∧
      (i.handler ∈ [Handler.ldi, Handler.mul, Handler.add] → t.pc.toNat = s.pc.toNat + 3)) ∧
    (t.status = .faulted ∧ t.fault.loc = .pc ↔
      s.pc.toNat = 253 ∧ i.handler ∈ [Handler.ldi, Handler.mul, Handler.add] ∧ i.wellFormed = true) ∧
    (t.status = .faulted → t.fault.loc = .pc →
      t = faultEntry (.outOfRange .pc 256) (s.readByte s.pc.toNat) s)

/-- R91: HLT leaves pc at its own address, STATUS becomes HALTED, and however many steps follow, nothing changes again. -/
def Obligations.HltStopsForGood : Prop :=
  ∀ (s : State) (k : Nat), s.status = .running → s.pc.toNat ≤ 253 → s.readByte s.pc.toNat = 0x01#8 →
    runsTo (k + 1) s { s with status := .halted }

/-- R80: STATUS moves only as its table says. (That a step in RESET changes nothing is the model's reading, log entry 3, and
is stated by `StepIdleUnlessRunning`.) -/
def Obligations.StatusMovesAsTabled : Prop :=
  (∀ (x : Vector Byte 8) (s : State), ∃ t, hostAct (.reset x) s = some t ∧ t.status = .reset) ∧
  (∀ s : State, s.status = .reset → ∃ t, hostAct .start s = some t ∧ t.status = .running) ∧
  (∀ s t : State, s.status = .running → step s = .next t →
    (t.status = .halted ↔ firstFault s = none ∧ s.readByte s.pc.toNat = 0x01#8) ∧
    (t.status = .faulted ↔ firstFault s ≠ none) ∧
    (t.status = .running ↔ firstFault s = none ∧ s.readByte s.pc.toNat ≠ 0x01#8)) ∧
  (∀ s : State, s.status = .halted ∨ s.status = .faulted → step s = .next s ∧
    ∀ act t, (∀ x, act ≠ .reset x) → hostAct act s = some t → t.status = s.status) ∧
  (∀ (act : HostAction) (s t : State), hostAct act s = some t → t.status ≠ s.status →
    (∃ x, act = .reset x) ∨ (act = .start ∧ s.status = .reset ∧ t.status = .running))

/-- Every state has a next state: no fault ends the model, no refusal exists. U11 says that every non-terminal state has
exactly one successor and that terminal states have none; that HALTED and FAULTED (V45) and RESET step to themselves is the
model's reading, log entry 3. -/
def Obligations.StepAlwaysAnswers : Prop :=
  ∀ s : State, ∃ t, step s = .next t

/-! ### Faults (60_exceptions.md) -/

/-- R182: a step that raises `r` (the first check of R184 that fails) writes the kind, location and value of `r`, its own
pc and the byte fetched there into the fault record and FAULTED into STATUS, and changes nothing else; a faulted step is
always such a step; and no further step changes anything. -/
def Obligations.FaultEntryIsPrecise : Prop :=
  ∀ s t : State, s.status = .running → step s = .next t → t.status = .faulted →
    (∃ r, firstFault s = some r ∧
      t = { s with status := .faulted, fault := ⟨r.kind, s.pc, s.readByte s.pc.toNat, r.loc, r.val⟩ }) ∧
    ∀ n, runsTo n t t

/-- R184: a step raises the first check of R184's list that fails, and no other; where none fails it commits or halts. -/
def Obligations.FirstFailingCheck : Prop :=
  ∀ s : State, s.status = .running →
    (∀ r, firstFault s = some r → step s = .next (faultEntry r (s.readByte s.pc.toNat) s)) ∧
    (firstFault s = none → ∃ t, step s = .next t ∧ t.status ≠ .faulted ∧ t.fault = s.fault)

/-! ### The stack (43_stack.md) and control transfer (44_call_return.md) -/

/-- R141: the push micro-operation. Underflow is tested first, then collision, both before any write. -/
def Obligations.PushMicroOperation : Prop :=
  ∀ (v : Byte) (s : State),
    (s.sp.toNat = 0 → pushByte v s = .error (.outOfRange .mem (-1))) ∧
    (1 ≤ s.sp.toNat → s.sp.toNat - 1 < s.stackFloor.toNat →
      pushByte v s = .error (.stackCollision (s.sp.toNat - 1 : Nat))) ∧
    (1 ≤ s.sp.toNat → s.stackFloor.toNat ≤ s.sp.toNat - 1 →
      ∃ t, pushByte v s = .ok t ∧ t.sp.toNat = s.sp.toNat - 1 ∧ t.readByte (s.sp.toNat - 1) = v ∧
        (∀ n, n ≠ s.sp.toNat - 1 → t.readByte n = s.readByte n) ∧ { t with sp := s.sp, mem := s.mem } = s)

/-- R142: the pop micro-operation. -/
def Obligations.PopMicroOperation : Prop :=
  ∀ s : State,
    (s.sp.toNat = 255 → popByte s = .error (.outOfRange .mem 256)) ∧
    (s.sp.toNat ≤ 254 → popByte s = .ok (s.readByte s.sp.toNat, { s with sp := BitVec.ofNat 8 (s.sp.toNat + 1) }))

/-- R145: PUSH Rr then POP Rq, neither faulting, is a round trip, and the pushed byte stays in its cell. -/
def Obligations.PushPopRoundTrip : Prop :=
  ∀ (s t u : State) (r q : Fin 8), s.status = .running →
    exec (.push (BitVec.ofNat 8 r.val)) s = .next t → t.status = .running →
    exec (.pop (BitVec.ofNat 8 q.val)) t = .next u → u.status = .running →
    u.getReg q = s.getReg r ∧ u.sp = s.sp ∧ u.readByte (s.sp.toNat - 1) = s.getReg r

/-- R103: LDI then PRN of the same register outputs the immediate, and the host renders it as one more line. -/
def Obligations.LdiPrnRoundTrip : Prop :=
  ∀ (s t u : State) (r : Fin 8) (v : Byte), s.status = .running →
    exec (.ldi (BitVec.ofNat 8 r.val) v) s = .next t → t.status = .running →
    exec (.prn (BitVec.ofNat 8 r.val)) t = .next u → u.status = .running →
    u.outputLog = s.outputLog ++ [v] ∧
      HostText.renderLog u.outputLog = HostText.renderLog s.outputLog ++ (Nat.toDigits 10 v.toNat ++ ['\n'])

/-- CALL then RET is a round trip (R162): a RET executed with sp as it was just after the CALL, and the pushed byte still in
its cell, resumes at the instruction after the CALL with sp as before it. R162 leaves the second condition unsaid; a callee
that pops the return address and pushes another byte breaks it, so it is stated here. -/
def Obligations.CallRetRoundTrip : Prop :=
  ∀ (s t u v : State) (a : Byte), s.status = .running → exec (.call a) s = .next t → t.status = .running →
    u.sp = t.sp → u.readByte t.sp.toNat = t.readByte t.sp.toNat → u.status = .running →
    exec .ret u = .next v → v.status = .running →
    v.pc.toNat = s.pc.toNat + 2 ∧ v.sp = s.sp

/-- R147: from sp = 0xF4, exactly `max(0, 0xF4 - STACK_FLOOR)` bytes can be pushed (subtraction on naturals is that maximum);
they occupy 0xF3 downwards, and the first push beyond raises as R147 says. -/
def Obligations.StackCapacity : Prop :=
  ∀ (s : State) (vs : List Byte), s.sp = 0xF4#8 →
    ((∃ t, pushAll vs s = .ok t) ↔ vs.length ≤ 0xF4 - s.stackFloor.toNat) ∧
    (∀ t, pushAll vs s = .ok t → ∀ j (h : j < vs.length), t.readByte (0xF3 - j) = vs[j]) ∧
    (∀ t v, pushAll vs s = .ok t → s.stackFloor.toNat ≤ 0xF4 → vs.length = 0xF4 - s.stackFloor.toNat →
      (1 ≤ s.stackFloor.toNat → pushByte v t = .error (.stackCollision (s.stackFloor.toNat - 1 : Nat))) ∧
      (s.stackFloor.toNat = 0 → pushByte v t = .error (.outOfRange .mem (-1))))

/-- No run writes below STACK_FLOOR, so the loaded image stays as loaded, from any state and for any number of steps (R51,
R141); and no run moves STACK_FLOOR (R29). -/
def Obligations.BytesBelowFloorIntact : Prop :=
  ∀ (k : Nat) (s t : State), runsTo k s t →
    t.stackFloor = s.stackFloor ∧ ∀ a, a < s.stackFloor.toNat → t.readByte a = s.readByte a

/-- Fetch is coherent with stack writes (R51): the byte a committed PUSH stores is the opcode byte a fetch at that address
sees, with nothing in between. -/
def Obligations.FetchSeesStackWrites : Prop :=
  ∀ (s t : State) (r : Fin 8), s.status = .running → exec (.push (BitVec.ofNat 8 r.val)) s = .next t →
    t.status = .running → (t.setPc t.sp).fetchOpcode = s.getReg r

/-! ### Reset and the host (70_reset_and_hazards.md) -/

/-- Reset (R210): every piece of state at the value R210's table gives, the registers at any REG_INIT the host's reset
supplies, memory unchanged. `State.reset` is such a state over a memory in which nothing was loaded, every cell of which
holds MEM_INIT. -/
def Obligations.ResetLeavesTheTabledState : Prop :=
  (∀ (x : Vector Byte 8) (s : State), ∃ t, hostAct (.reset x) s = some t ∧ t.regs = x ∧ t.pc.toNat = 0 ∧
    t.sp.toNat = 244 ∧ t.status.code = 0 ∧ t.fault.kind.code = 0 ∧ t.fault.pc = 0 ∧ t.fault.ir = 0 ∧
    t.fault.loc.code = 0 ∧ t.fault.val = 0 ∧ t.stackFloor = 0 ∧ t.outputLog = [] ∧
    ∀ n, t.readByte n = s.readByte n) ∧
  (∃ x, hostAct (.reset x) State.reset = some State.reset) ∧
  (∀ n, State.reset.readByte n = Config.memInit n)

/-- The invariant holds right after reset. -/
def Obligations.ResetMeetsInv : Prop := State.reset.Inv

/-- Every step keeps the invariant: canonical memory, STACK_FLOOR in 0..256 (R29), and a fault record that is zero until a
fault, and a row of R180's table for the instruction at pc afterwards (R28, R180, R182). -/
def Obligations.StepKeepsInv : Prop :=
  ∀ s t : State, s.Inv → step s = .next t → t.Inv

/-- Every host action keeps the invariant. -/
def Obligations.HostActionKeepsInv : Prop :=
  ∀ (act : HostAction) (s t : State), s.Inv → hostAct act s = some t → t.Inv

/-- R211, R212: the boot sequence loads the image at 0.., sets STACK_FLOOR to its length, and starts at address 0; an image
longer than 256 bytes is refused. -/
def Obligations.BootLoadsTheImage : Prop :=
  ∀ (x : Vector Byte 8) (image : List Byte) (s : State),
    (256 < image.length → boot x image s = none) ∧
    (image.length ≤ 256 → ∃ t, boot x image s = some t ∧ t.status = .running ∧ t.pc = 0 ∧ t.sp = 0xF4#8 ∧
      t.regs = x ∧ t.fault = FaultRecord.zero ∧ t.outputLog = [] ∧ t.stackFloor.toNat = image.length ∧
      (∀ k (h : k < image.length), t.readByte k = image[k]) ∧
      (∀ n, image.length ≤ n → t.readByte n = s.readByte n) ∧
      (∀ h : 0 < image.length, t.fetchOpcode = image[0]))

/-- What the host may do and read in each control state (R214, with R6, R53, R192 and D23). It loads in RESET; only Reset has
a meaning while RUNNING; only Reset changes anything in HALTED and FAULTED. A load-port write outside RESET, and a
STACK_FLOOR above 256, answer none (log entry 6). It may read everything in RESET, HALTED and FAULTED; the output log,
STATUS and the fault record while RUNNING; where the spec's files differ on this, log entry 9 names the model's choice. A
read that is allowed answers the value held. -/
def Obligations.HostActionsAsTabled : Prop :=
  (∀ s : State, s.status = .reset →
    (∀ a v : Byte, ∃ t, hostAct (.writeByte a v) s = some t ∧ t.readByte a.toNat = v ∧
      (∀ n, n ≠ a.toNat → t.readByte n = s.readByte n) ∧ { t with mem := s.mem } = s) ∧
    (∀ l, l ≤ 256 → ∃ t, hostAct (.writeStackFloor l) s = some t ∧ t.stackFloor.toNat = l ∧
      { t with stackFloor := s.stackFloor } = s)) ∧
  (∀ (act : HostAction) (s t : State), s.status = .running → hostAct act s = some t → ∃ x, act = .reset x) ∧
  (∀ (act : HostAction) (s t : State), s.ended = true → hostAct act s = some t → (∃ x, act = .reset x) ∨ t = s) ∧
  (∀ s : State, s.status ≠ .reset →
    (∀ a v : Byte, hostAct (.writeByte a v) s = none) ∧ ∀ l, hostAct (.writeStackFloor l) s = none) ∧
  (∀ (s : State) (l : Nat), 256 < l → hostAct (.writeStackFloor l) s = none) ∧
  (∀ (s : State) (item : HostItem),
    (s.ended = true ∨ s.status = .reset → hostRead item s = some (s.hostValue item)) ∧
    (s.status = .running → hostRead item s =
      if item ∈ [HostItem.outputLog, .status, .faultRecord] then some (s.hostValue item) else none)) ∧
  (∀ s : State, s.hostValue .registers = .registers s.regs ∧ s.hostValue .pc = .byte s.pc ∧ s.hostValue .sp = .byte s.sp ∧
    s.hostValue .status = .status s.status ∧ s.hostValue .outputLog = .bytes s.outputLog ∧
    s.hostValue .stackFloor = .floor s.stackFloor ∧ s.hostValue .faultRecord = .fault s.fault ∧
    ∃ cells, s.hostValue .memory = .bytes cells ∧ cells.length = 256 ∧ ∀ n, n < 256 → cells[n]? = some (s.readByte n))

/-- R215: the end of a run is one state after one number of steps, its observation exists, and every later step leaves it
(R192). -/
def Obligations.EndOfRunIsUnique : Prop :=
  (∀ (s t t' : State) (k k' : Nat), endsAt k s t → endsAt k' s t' → k = k' ∧ t = t') ∧
  (∀ (s t : State) (k : Nat), endsAt k s t →
    (∃ o, t.observation = some o ∧ o.status = t.status ∧ o.outputLog = t.outputLog ∧ o.regs = t.regs ∧ o.pc = t.pc ∧
      o.sp = t.sp ∧ o.fault = t.fault ∧ ∀ n, n < 256 → o.mem[n]? = some (t.readByte n)) ∧
    ∀ n, runsTo (k + n) s t)

/-- R33: the output log is empty after reset, only a committed PRN appends to it, and nothing removes from it. -/
def Obligations.OutputOnlyByPrn : Prop :=
  (∀ (x : Vector Byte 8) (s t : State), hostAct (.reset x) s = some t → t.outputLog = []) ∧
  (∀ (act : HostAction) (s t : State), (∀ x, act ≠ .reset x) → hostAct act s = some t → t.outputLog = s.outputLog) ∧
  (∀ s t : State, step s = .next t → t.outputLog ≠ s.outputLog →
    s.status = .running ∧ t.status = .running ∧ s.readByte s.pc.toNat = 0x47#8 ∧
      ∃ r : Fin 8, (s.readByte (s.pc.toNat + 1)).toNat = r.val ∧ t.outputLog = s.outputLog ++ [s.getReg r])

/-! ### The host's text forms -/

/-- R105: an output event renders as its decimal numeral, without leading zeros, and one newline; a log renders as the
concatenation of its lines. -/
def Obligations.RenderedOutputIsDecimalLines : Prop :=
  (∀ v : Byte, ∃ ds, HostText.renderByte v = ds ++ ['\n'] ∧ HostText.numeral 10 ds = some v.toNat ∧
    (ds.head? = some '0' → ds = ['0'])) ∧
  (∀ l m : List Byte, HostText.renderLog (l ++ m) = HostText.renderLog l ++ HostText.renderLog m) ∧
  (∀ v : Byte, HostText.renderLog [v] = HostText.renderByte v)

/-- A program file written with one 8-character binary literal a line reads back as its image (R70). -/
def Obligations.ProgramFileRoundTrip : Prop :=
  ∀ image : List Byte, HostText.parseProgramFile (HostText.formatProgramFile image) = some image

/-- Every well-formed instruction, printed in the canonical comma form, reads back as itself and assembles to its encoding
(R10, R69). -/
def Obligations.AssemblyRoundTrip : Prop :=
  ∀ i : Instr, i.wellFormed = true →
    HostText.parseStatement (HostText.printStatement i) = some i ∧
      HostText.assembleStatement (HostText.printStatement i) = some (encode i)

/-- The memory contract (R53) beside what the block allows: the load port accepts a write exactly where the contract has the
host write; a read of memory that keeps the contract, one in HALTED or FAULTED, answers all 256 cells; and outside RUNNING a
step uses no memory: it leaves the state alone whatever memory holds (in RESET by log entry 3). That the block would answer
a read of memory in RESET too, where the contract has none, is log entry 9. -/
def Obligations.MemoryContractKept : Prop :=
  (∀ (s : State) (a v : Byte), (∃ t, hostAct (.writeByte a v) s = some t) ↔ memoryContract s.status .hostWrite = true) ∧
  (∀ s : State, (memoryContract s.status .hostRead = true ↔ s.ended = true) ∧
    (memoryContract s.status .hostRead = true → hostRead .memory s = some (.bytes s.cells))) ∧
  (∀ (s : State) (m : Memory), memoryContract s.status .core = false →
    step { s with mem := m } = .next { s with mem := m }) ∧
  (∀ c : Status, memoryContract c .core = true ↔ c = .running)
end

