-- ==== Sys2Proof/Laws/Decode.lean ====
section
/-! SUPPORT. What dispatch answers, said once. -/

namespace Sys2Proof

/-- The binary patterns of dispatch and the hex column of the table agree. -/
theorem dispatch_opcode (h : Handler) : dispatch h.opcode = some h := by
  cases h <;> rfl

/-- Dispatch answers a handler only for that handler's own opcode byte. -/
theorem eq_opcode_of_dispatch {ir : Byte} {h : Handler} (hd : dispatch ir = some h) : ir = h.opcode := by
  unfold dispatch at hd
  repeat (split at hd; · cases hd; assumption)
  cases hd

theorem assemble_handler (a b : Byte) (h : Handler) : (h.assemble a b).handler = h := by
  cases h <;> rfl

/-- A decoded instruction is its handler's, and its opcode is the byte that was fetched. -/
theorem decode_eq_ok {ir a b : Byte} {i : Instr} (h : decode ir a b = .ok i) :
    ir = i.opcode ∧ i = i.handler.assemble a b := by
  cases hd : dispatch ir with
  | none => simp [decode, hd] at h
  | some k =>
    simp only [decode, hd] at h
    cases h
    exact ⟨by rw [Instr.opcode, assemble_handler]; exact eq_opcode_of_dispatch hd, by rw [assemble_handler]⟩

/-- The length the opcode's top two bits give is the opcode byte and the operand bytes the instruction has (R60, R61). -/
theorem length_eq_operandBytes (i : Instr) : i.length = i.operandBytes.length + 1 := by
  cases i <;> simp [Instr.length, Instr.opcode, Instr.handler, Handler.opcode, operandCount, Instr.operandBytes]

end Sys2Proof
end

