-- ==== Sys2Proof/Laws/State.lean ====
section
/-! SUPPORT. One lemma per field per update of State, each true by rfl, so that no proof unfolds a record update. -/

namespace Sys2Proof.Machine

variable (s : State)

/-! ### writeByte -/

@[simp] theorem State.writeByte_regs (a : Nat) (v : Byte) : (s.writeByte a v).regs = s.regs := rfl
@[simp] theorem State.writeByte_pc (a : Nat) (v : Byte) : (s.writeByte a v).pc = s.pc := rfl
@[simp] theorem State.writeByte_sp (a : Nat) (v : Byte) : (s.writeByte a v).sp = s.sp := rfl
@[simp] theorem State.writeByte_status (a : Nat) (v : Byte) : (s.writeByte a v).status = s.status := rfl
@[simp] theorem State.writeByte_fault (a : Nat) (v : Byte) : (s.writeByte a v).fault = s.fault := rfl
@[simp] theorem State.writeByte_stackFloor (a : Nat) (v : Byte) : (s.writeByte a v).stackFloor = s.stackFloor := rfl
@[simp] theorem State.writeByte_outputLog (a : Nat) (v : Byte) : (s.writeByte a v).outputLog = s.outputLog := rfl
@[simp] theorem State.writeByte_mem (a : Nat) (v : Byte) : (s.writeByte a v).mem = Memory.write a v s.mem := rfl
@[simp] theorem State.writeByte_getReg (a : Nat) (v : Byte) (r : Fin 8) : (s.writeByte a v).getReg r = s.getReg r := rfl

/-! ### setReg -/

@[simp] theorem State.setReg_regs (i : Fin 8) (v : Byte) : (s.setReg i v).regs = s.regs.set i v := rfl
@[simp] theorem State.setReg_pc (i : Fin 8) (v : Byte) : (s.setReg i v).pc = s.pc := rfl
@[simp] theorem State.setReg_sp (i : Fin 8) (v : Byte) : (s.setReg i v).sp = s.sp := rfl
@[simp] theorem State.setReg_status (i : Fin 8) (v : Byte) : (s.setReg i v).status = s.status := rfl
@[simp] theorem State.setReg_fault (i : Fin 8) (v : Byte) : (s.setReg i v).fault = s.fault := rfl
@[simp] theorem State.setReg_stackFloor (i : Fin 8) (v : Byte) : (s.setReg i v).stackFloor = s.stackFloor := rfl
@[simp] theorem State.setReg_outputLog (i : Fin 8) (v : Byte) : (s.setReg i v).outputLog = s.outputLog := rfl
@[simp] theorem State.setReg_mem (i : Fin 8) (v : Byte) : (s.setReg i v).mem = s.mem := rfl
@[simp] theorem State.setReg_readByte (i : Fin 8) (v : Byte) (n : Nat) : (s.setReg i v).readByte n = s.readByte n := rfl

/-! ### setPc -/

@[simp] theorem State.setPc_regs (t : Byte) : (s.setPc t).regs = s.regs := rfl
@[simp] theorem State.setPc_pc (t : Byte) : (s.setPc t).pc = t := rfl
@[simp] theorem State.setPc_sp (t : Byte) : (s.setPc t).sp = s.sp := rfl
@[simp] theorem State.setPc_status (t : Byte) : (s.setPc t).status = s.status := rfl
@[simp] theorem State.setPc_fault (t : Byte) : (s.setPc t).fault = s.fault := rfl
@[simp] theorem State.setPc_stackFloor (t : Byte) : (s.setPc t).stackFloor = s.stackFloor := rfl
@[simp] theorem State.setPc_outputLog (t : Byte) : (s.setPc t).outputLog = s.outputLog := rfl
@[simp] theorem State.setPc_mem (t : Byte) : (s.setPc t).mem = s.mem := rfl
@[simp] theorem State.setPc_getReg (t : Byte) (r : Fin 8) : (s.setPc t).getReg r = s.getReg r := rfl
@[simp] theorem State.setPc_readByte (t : Byte) (n : Nat) : (s.setPc t).readByte n = s.readByte n := rfl

/-! ### setSp -/

@[simp] theorem State.setSp_regs (t : Byte) : (s.setSp t).regs = s.regs := rfl
@[simp] theorem State.setSp_pc (t : Byte) : (s.setSp t).pc = s.pc := rfl
@[simp] theorem State.setSp_sp (t : Byte) : (s.setSp t).sp = t := rfl
@[simp] theorem State.setSp_status (t : Byte) : (s.setSp t).status = s.status := rfl
@[simp] theorem State.setSp_fault (t : Byte) : (s.setSp t).fault = s.fault := rfl
@[simp] theorem State.setSp_stackFloor (t : Byte) : (s.setSp t).stackFloor = s.stackFloor := rfl
@[simp] theorem State.setSp_outputLog (t : Byte) : (s.setSp t).outputLog = s.outputLog := rfl
@[simp] theorem State.setSp_mem (t : Byte) : (s.setSp t).mem = s.mem := rfl
@[simp] theorem State.setSp_getReg (t : Byte) (r : Fin 8) : (s.setSp t).getReg r = s.getReg r := rfl
@[simp] theorem State.setSp_readByte (t : Byte) (n : Nat) : (s.setSp t).readByte n = s.readByte n := rfl

/-! ### setStatus -/

@[simp] theorem State.setStatus_regs (c : Status) : (s.setStatus c).regs = s.regs := rfl
@[simp] theorem State.setStatus_pc (c : Status) : (s.setStatus c).pc = s.pc := rfl
@[simp] theorem State.setStatus_sp (c : Status) : (s.setStatus c).sp = s.sp := rfl
@[simp] theorem State.setStatus_status (c : Status) : (s.setStatus c).status = c := rfl
@[simp] theorem State.setStatus_fault (c : Status) : (s.setStatus c).fault = s.fault := rfl
@[simp] theorem State.setStatus_stackFloor (c : Status) : (s.setStatus c).stackFloor = s.stackFloor := rfl
@[simp] theorem State.setStatus_outputLog (c : Status) : (s.setStatus c).outputLog = s.outputLog := rfl
@[simp] theorem State.setStatus_mem (c : Status) : (s.setStatus c).mem = s.mem := rfl
@[simp] theorem State.setStatus_getReg (c : Status) (r : Fin 8) : (s.setStatus c).getReg r = s.getReg r := rfl
@[simp] theorem State.setStatus_readByte (c : Status) (n : Nat) : (s.setStatus c).readByte n = s.readByte n := rfl

/-! ### setStackFloor -/

@[simp] theorem State.setStackFloor_regs (l : BitVec 9) : (s.setStackFloor l).regs = s.regs := rfl
@[simp] theorem State.setStackFloor_pc (l : BitVec 9) : (s.setStackFloor l).pc = s.pc := rfl
@[simp] theorem State.setStackFloor_sp (l : BitVec 9) : (s.setStackFloor l).sp = s.sp := rfl
@[simp] theorem State.setStackFloor_status (l : BitVec 9) : (s.setStackFloor l).status = s.status := rfl
@[simp] theorem State.setStackFloor_fault (l : BitVec 9) : (s.setStackFloor l).fault = s.fault := rfl
@[simp] theorem State.setStackFloor_stackFloor (l : BitVec 9) : (s.setStackFloor l).stackFloor = l := rfl
@[simp] theorem State.setStackFloor_outputLog (l : BitVec 9) : (s.setStackFloor l).outputLog = s.outputLog := rfl
@[simp] theorem State.setStackFloor_mem (l : BitVec 9) : (s.setStackFloor l).mem = s.mem := rfl
@[simp] theorem State.setStackFloor_getReg (l : BitVec 9) (r : Fin 8) : (s.setStackFloor l).getReg r = s.getReg r := rfl
@[simp] theorem State.setStackFloor_readByte (l : BitVec 9) (n : Nat) : (s.setStackFloor l).readByte n = s.readByte n := rfl

/-! ### emit -/

@[simp] theorem State.emit_regs (v : Byte) : (s.emit v).regs = s.regs := rfl
@[simp] theorem State.emit_pc (v : Byte) : (s.emit v).pc = s.pc := rfl
@[simp] theorem State.emit_sp (v : Byte) : (s.emit v).sp = s.sp := rfl
@[simp] theorem State.emit_status (v : Byte) : (s.emit v).status = s.status := rfl
@[simp] theorem State.emit_fault (v : Byte) : (s.emit v).fault = s.fault := rfl
@[simp] theorem State.emit_stackFloor (v : Byte) : (s.emit v).stackFloor = s.stackFloor := rfl
@[simp] theorem State.emit_outputLog (v : Byte) : (s.emit v).outputLog = s.outputLog ++ [v] := rfl
@[simp] theorem State.emit_mem (v : Byte) : (s.emit v).mem = s.mem := rfl
@[simp] theorem State.emit_getReg (v : Byte) (r : Fin 8) : (s.emit v).getReg r = s.getReg r := rfl
@[simp] theorem State.emit_readByte (v : Byte) (n : Nat) : (s.emit v).readByte n = s.readByte n := rfl

/-! ### faultEntry -/

@[simp] theorem faultEntry_regs (r : Raised) (ir : Byte) : (faultEntry r ir s).regs = s.regs := rfl
@[simp] theorem faultEntry_pc (r : Raised) (ir : Byte) : (faultEntry r ir s).pc = s.pc := rfl
@[simp] theorem faultEntry_sp (r : Raised) (ir : Byte) : (faultEntry r ir s).sp = s.sp := rfl
@[simp] theorem faultEntry_status (r : Raised) (ir : Byte) : (faultEntry r ir s).status = .faulted := rfl
@[simp] theorem faultEntry_fault (r : Raised) (ir : Byte) : (faultEntry r ir s).fault = ⟨r.kind, s.pc, ir, r.loc, r.val⟩ := rfl
@[simp] theorem faultEntry_stackFloor (r : Raised) (ir : Byte) : (faultEntry r ir s).stackFloor = s.stackFloor := rfl
@[simp] theorem faultEntry_outputLog (r : Raised) (ir : Byte) : (faultEntry r ir s).outputLog = s.outputLog := rfl
@[simp] theorem faultEntry_mem (r : Raised) (ir : Byte) : (faultEntry r ir s).mem = s.mem := rfl
@[simp] theorem faultEntry_getReg (r : Raised) (ir : Byte) (i : Fin 8) : (faultEntry r ir s).getReg i = s.getReg i := rfl
@[simp] theorem faultEntry_readByte (r : Raised) (ir : Byte) (n : Nat) : (faultEntry r ir s).readByte n = s.readByte n := rfl

/-! ### hostReset -/

@[simp] theorem hostReset_regs (x : Vector Byte 8) : (hostReset x s).regs = x := rfl
@[simp] theorem hostReset_pc (x : Vector Byte 8) : (hostReset x s).pc = Config.pcReset := rfl
@[simp] theorem hostReset_sp (x : Vector Byte 8) : (hostReset x s).sp = Config.spReset := rfl
@[simp] theorem hostReset_status (x : Vector Byte 8) : (hostReset x s).status = .reset := rfl
@[simp] theorem hostReset_fault (x : Vector Byte 8) : (hostReset x s).fault = FaultRecord.zero := rfl
@[simp] theorem hostReset_stackFloor (x : Vector Byte 8) : (hostReset x s).stackFloor = 0 := rfl
@[simp] theorem hostReset_outputLog (x : Vector Byte 8) : (hostReset x s).outputLog = [] := rfl
@[simp] theorem hostReset_mem (x : Vector Byte 8) : (hostReset x s).mem = s.mem := rfl
@[simp] theorem hostReset_readByte (x : Vector Byte 8) (n : Nat) : (hostReset x s).readByte n = s.readByte n := rfl

/-! ### A register read after a register write -/

@[simp] theorem State.getReg_setReg_same (i : Fin 8) (v : Byte) : (s.setReg i v).getReg i = v := by
  simp [State.getReg, State.setReg]

theorem State.getReg_setReg_ne {i j : Fin 8} (h : j ≠ i) (v : Byte) : (s.setReg i v).getReg j = s.getReg j := by
  have hn : i.val ≠ j.val := fun e => h (Fin.ext e.symm)
  simp [State.getReg, State.setReg, Vector.getElem_set_ne, hn]

end Sys2Proof.Machine
end

