-- ==== Sys2Proof/Laws/Memory.lean ====
section
/-! SUPPORT. The laws of memory: a read after a write, and the canonical form that every operation keeps. -/

namespace Sys2Proof.Machine

theorem Memory.lookup_write_same (a : Nat) (v : Byte) (m : Memory) :
    Memory.lookup a (Memory.write a v m) = some v := by
  induction m with
  | nil => simp [Memory.write, Memory.lookup]
  | cons c rest ih =>
    obtain ⟨k, w⟩ := c
    simp only [Memory.write]
    split
    · simp [Memory.lookup]
    · split
      · simp [Memory.lookup]
      · simp [Memory.lookup, *]

theorem Memory.lookup_write_ne {a b : Nat} (h : b ≠ a) (v : Byte) (m : Memory) :
    Memory.lookup b (Memory.write a v m) = Memory.lookup b m := by
  induction m with
  | nil => simp [Memory.write, Memory.lookup, h]
  | cons c rest ih =>
    obtain ⟨k, w⟩ := c
    simp only [Memory.write]
    split
    · simp [Memory.lookup, h]
    · split
      · rename_i hk
        subst hk
        simp [Memory.lookup, h]
      · simp [Memory.lookup, ih]

theorem Memory.read_write_same (a : Nat) (v : Byte) (m : Memory) : Memory.read (Memory.write a v m) a = v := by
  simp [Memory.read, Memory.lookup_write_same]

theorem Memory.read_write_ne {a b : Nat} (h : b ≠ a) (v : Byte) (m : Memory) :
    Memory.read (Memory.write a v m) b = Memory.read m b := by
  simp [Memory.read, Memory.lookup_write_ne h]

@[simp] theorem State.readByte_writeByte_same (s : State) (a : Nat) (v : Byte) : (s.writeByte a v).readByte a = v :=
  Memory.read_write_same a v s.mem

theorem State.readByte_writeByte_ne (s : State) {a b : Nat} (h : b ≠ a) (v : Byte) :
    (s.writeByte a v).readByte b = s.readByte b :=
  Memory.read_write_ne h v s.mem

/-- Every entry after a write was an entry before it, or is the written one. -/
theorem Memory.mem_write {a : Nat} {v : Byte} {m : Memory} {c : Host.Cell} (h : c ∈ Memory.write a v m) :
    c = (a, v) ∨ c ∈ m := by
  induction m with
  | nil => simpa [Memory.write] using h
  | cons d rest ih =>
    obtain ⟨k, w⟩ := d
    simp only [Memory.write] at h
    split at h
    · simpa using h
    · split at h
      · rcases List.mem_cons.1 h with h | h
        · exact .inl h
        · exact .inr (List.mem_cons_of_mem _ h)
      · rcases List.mem_cons.1 h with h | h
        · exact .inr (h ▸ List.mem_cons_self)
        · exact (ih h).imp_right (List.mem_cons_of_mem _)

theorem Memory.pairwise_write {a : Nat} {v : Byte} {m : Memory} (h : m.Pairwise (fun c d => c.1 < d.1)) :
    (Memory.write a v m).Pairwise (fun c d => c.1 < d.1) := by
  induction m with
  | nil => simp [Memory.write]
  | cons c rest ih =>
    obtain ⟨k, w⟩ := c
    obtain ⟨hk, hrest⟩ := List.pairwise_cons.1 h
    simp only [Memory.write]
    split
    · rename_i hlt
      refine List.pairwise_cons.2 ⟨fun d hd => ?_, h⟩
      rcases List.mem_cons.1 hd with rfl | hd
      · exact hlt
      · exact hlt.trans (hk d hd)
    · split
      · rename_i heq
        subst heq
        exact List.pairwise_cons.2 ⟨hk, hrest⟩
      · refine List.pairwise_cons.2 ⟨fun d hd => ?_, ih hrest⟩
        rcases Memory.mem_write hd with rfl | hd
        · show k < a
          omega
        · exact hk d hd

/-- A write keeps the canonical form. -/
theorem Memory.write_wf {a : Nat} {v : Byte} {m : Memory} (ha : a < Config.memSize) (h : Memory.wf m) :
    Memory.wf (Memory.write a v m) := by
  refine ⟨Memory.pairwise_write h.1, fun c hc => ?_⟩
  rcases Memory.mem_write hc with rfl | hc
  · exact ha
  · exact h.2 c hc

/-- The canonical form is the only one: no address below the first listed one holds a value. -/
theorem Memory.lookup_eq_none_of_lt {a : Nat} {m : Memory} (h : ∀ c ∈ m, a < c.1) : Memory.lookup a m = none := by
  induction m with
  | nil => rfl
  | cons c rest ih =>
    obtain ⟨k, w⟩ := c
    have hk : a < k := h (k, w) List.mem_cons_self
    simp [Memory.lookup, Nat.ne_of_lt hk, ih fun d hd => h d (List.mem_cons_of_mem _ hd)]

/-- Two canonical memories that hold the same values are the same list. -/
theorem Memory.ext_of_wf {m n : Memory} (hm : Memory.wf m) (hn : Memory.wf n)
    (h : ∀ a, Memory.lookup a m = Memory.lookup a n) : m = n := by
  induction m generalizing n with
  | nil =>
    cases n with
    | nil => rfl
    | cons c rest => simpa [Memory.lookup] using h c.1
  | cons c rest ih =>
    obtain ⟨hc, hrest⟩ := List.pairwise_cons.1 hm.1
    cases n with
    | nil => simpa [Memory.lookup] using h c.1
    | cons d rest' =>
      obtain ⟨hd, hrest'⟩ := List.pairwise_cons.1 hn.1
      have hkey : c.1 = d.1 := by
        rcases Nat.lt_trichotomy c.1 d.1 with hlt | heq | hgt
        · have hkeys := h c.1
          have hnone : Memory.lookup c.1 (d :: rest') = none := Memory.lookup_eq_none_of_lt fun e he => by
            rcases List.mem_cons.1 he with rfl | he
            · exact hlt
            · exact hlt.trans (hd e he)
          rw [hnone] at hkeys
          simp [Memory.lookup] at hkeys
        · exact heq
        · have hkeys := h d.1
          have hnone : Memory.lookup d.1 (c :: rest) = none := Memory.lookup_eq_none_of_lt fun e he => by
            rcases List.mem_cons.1 he with rfl | he
            · exact hgt
            · exact hgt.trans (hc e he)
          rw [hnone] at hkeys
          simp [Memory.lookup] at hkeys
      have hval : c.2 = d.2 := by simpa [Memory.lookup, hkey] using h c.1
      have hcd : c = d := Prod.ext hkey hval
      subst hcd
      congr 1
      refine ih ⟨hrest, fun e he => hm.2 e (List.mem_cons_of_mem _ he)⟩
        ⟨hrest', fun e he => hn.2 e (List.mem_cons_of_mem _ he)⟩ fun a => ?_
      by_cases ha : a = c.1
      · subst ha
        rw [Memory.lookup_eq_none_of_lt hc, Memory.lookup_eq_none_of_lt hd]
      · simpa [Memory.lookup, ha] using h a

/-- Reset memory is canonical. -/
theorem reset_mem_wf : Memory.wf State.reset.mem := by decide

end Sys2Proof.Machine
end

