-- ==== Sys2Proof/Laws/Ops.lean ====
section
/-! SUPPORT. One lemma per shared operation that says once everything it can do. -/

namespace Sys2Proof.Machine

/-! ### Operand fetch and advance -/

theorem checkOperandFetch_ok {pc : Byte} (h : pc.toNat ≤ 253) : checkOperandFetch pc = .ok () := by
  rw [checkOperandFetch, if_neg (by omega), if_neg (by omega)]

theorem checkOperandFetch_error {pc : Byte} (h : 254 ≤ pc.toNat) :
    checkOperandFetch pc = .error (.outOfRange .mem 256) := by
  have hlt := pc.isLt
  unfold checkOperandFetch
  rcases (show pc.toNat = 254 ∨ pc.toNat = 255 by omega) with e | e <;> rw [e] <;> rfl

/-- The operand fetch raises nothing but `OutOfRangeAccess(MEM, 256)`, and only at pc 254 and 255 (R85). -/
theorem checkOperandFetch_cases (pc : Byte) :
    (pc.toNat ≤ 253 ∧ checkOperandFetch pc = .ok ()) ∨
      (254 ≤ pc.toNat ∧ checkOperandFetch pc = .error (.outOfRange .mem 256)) := by
  rcases Nat.lt_or_ge pc.toNat 254 with h | h
  · exact .inl ⟨by omega, checkOperandFetch_ok (by omega)⟩
  · exact .inr ⟨h, checkOperandFetch_error h⟩

theorem operandCount_le (ir : Byte) : operandCount ir ≤ 3 := by
  have h := ir.isLt
  simp [operandCount, BitVec.toNat_ushiftRight, Nat.shiftRight_eq_div_pow]
  omega

theorem advance_ok {pc ir : Byte} {t : State} (h : pc.toNat + operandCount ir + 1 ≤ 255) :
    advance pc ir t = .ok (t.setPc (BitVec.ofNat 8 (pc.toNat + operandCount ir + 1))) := by
  simp only [advance]
  rw [if_neg (by omega)]

theorem advance_error {pc ir : Byte} {t : State} (h : 255 < pc.toNat + operandCount ir + 1) :
    advance pc ir t = .error (.outOfRange .pc (pc.toNat + operandCount ir + 1 : Nat)) := by
  simp only [advance]
  rw [if_pos h]

/-- If the advance answers a state, only pc changed, and it is the exact sum (R88). -/
theorem advance_eq_ok {pc ir : Byte} {t u : State} (h : advance pc ir t = .ok u) :
    pc.toNat + operandCount ir + 1 ≤ 255 ∧ u = t.setPc (BitVec.ofNat 8 (pc.toNat + operandCount ir + 1)) := by
  rcases Nat.lt_or_ge 255 (pc.toNat + operandCount ir + 1) with hlt | hle
  · rw [advance_error hlt] at h
    cases h
  · rw [advance_ok hle] at h
    exact ⟨hle, (Except.ok.inj h).symm⟩

/-- After the handler, only pc can change (R88, R89, R91). -/
theorem afterHandler_eq_ok {i : Instr} {pc : Byte} {t u : State} (h : afterHandler i pc t = .ok u) :
    u = t.setPc u.pc := by
  unfold afterHandler at h
  split at h
  · cases h; rfl
  · split at h
    · cases h; rfl
    · rw [(advance_eq_ok h).2]; rfl

/-! ### Operands -/

theorem regIndex_ok {a : Byte} (h : a.toNat < 8) : regIndex a = .ok ⟨a.toNat, h⟩ := by
  simp [regIndex, h]

theorem regIndex_error {a : Byte} (h : 7 < a.toNat) : regIndex a = .error (.outOfRange .reg a.toNat) := by
  rw [regIndex, dif_neg (by omega)]

theorem regIndex_cases (a : Byte) :
    (∃ r : Fin 8, r.val = a.toNat ∧ regIndex a = .ok r) ∨
      (7 < a.toNat ∧ regIndex a = .error (.outOfRange .reg a.toNat)) := by
  rcases Nat.lt_or_ge 7 a.toNat with h | h
  · exact .inr ⟨h, regIndex_error h⟩
  · exact .inl ⟨⟨a.toNat, by omega⟩, rfl, regIndex_ok (by omega)⟩

/-! ### The ALU -/

/-- The ALU answers a value for the two operation identities of the instruction set (R121). -/
theorem alu_add (x y : Byte) : alu 0xA0#8 x y = .result (x + y) := by
  have h : BitVec.ofNat 8 ((x.toNat + y.toNat) % 256) = x + y := by
    apply BitVec.eq_of_toNat_eq
    simp
  rw [alu, if_pos rfl, h]

theorem alu_mul (x y : Byte) : alu 0xA2#8 x y = .result (x * y) := by
  have h : BitVec.ofNat 8 ((x.toNat * y.toNat) % 256) = x * y := by
    apply BitVec.eq_of_toNat_eq
    simp
  rw [alu, if_neg (by decide), if_pos rfl, h]

/-! ### The stack -/

/-- Everything a push can do (R141). -/
theorem pushByte_cases (v : Byte) (s : State) :
    (s.sp.toNat = 0 ∧ pushByte v s = .error (.outOfRange .mem (-1))) ∨
    (1 ≤ s.sp.toNat ∧ pushAddr s < s.stackFloor.toNat ∧ pushByte v s = .error (.stackCollision (pushAddr s))) ∨
    (1 ≤ s.sp.toNat ∧ s.stackFloor.toNat ≤ pushAddr s ∧
      pushByte v s = .ok ((s.setSp (BitVec.ofNat 8 (pushAddr s))).writeByte (pushAddr s) v)) := by
  unfold pushByte
  split
  · exact .inl ⟨by omega, rfl⟩
  · split
    · exact .inr (.inl ⟨by omega, by assumption, rfl⟩)
    · exact .inr (.inr ⟨by omega, by omega, rfl⟩)

/-- Everything a pop can do (R142). -/
theorem popByte_cases (s : State) :
    (s.sp.toNat = 255 ∧ popByte s = .error (.outOfRange .mem 256)) ∨
    (s.sp.toNat ≤ 254 ∧
      popByte s = .ok (s.readByte s.sp.toNat, s.setSp (BitVec.ofNat 8 (s.sp.toNat + 1)))) := by
  have hlt := s.sp.isLt
  unfold popByte
  rcases Nat.lt_or_ge s.sp.toNat 255 with h | h
  · exact .inr ⟨by omega, by rw [if_neg (by omega)]⟩
  · have e : s.sp.toNat = 255 := by omega
    refine .inl ⟨e, ?_⟩
    rw [if_pos (by omega), e]
    rfl

/-! ### The frame of a step -/

/-- Everything an instruction can do around its handler (R82, R90): the operand fetch raises; the handler raises; the
advance raises; or all three answer. A raise leaves the state the step began with, but for the fault entry. -/
theorem runHandler_cases (i : Instr) (h : State → Except Raised State) (s : State) :
    (254 ≤ s.pc.toNat ∧ runHandler i h s = .next (faultEntry (.outOfRange .mem 256) i.opcode s)) ∨
    (s.pc.toNat ≤ 253 ∧ ∃ r, h s = .error r ∧ runHandler i h s = .next (faultEntry r i.opcode s)) ∨
    (s.pc.toNat ≤ 253 ∧ ∃ t r, h s = .ok t ∧ afterHandler i s.pc t = .error r ∧
      runHandler i h s = .next (faultEntry r i.opcode s)) ∨
    (s.pc.toNat ≤ 253 ∧ ∃ t u, h s = .ok t ∧ afterHandler i s.pc t = .ok u ∧ runHandler i h s = .next u) := by
  unfold runHandler
  rcases checkOperandFetch_cases s.pc with ⟨hpc, e⟩ | ⟨hpc, e⟩
  · right
    rw [e]
    cases hh : h s with
    | error r => exact .inl ⟨hpc, r, rfl, by simp [bind, Except.bind, settle]⟩
    | ok t =>
      right
      cases ha : afterHandler i s.pc t with
      | error r => exact .inl ⟨hpc, t, r, rfl, ha, by simp [bind, Except.bind, ha, settle]⟩
      | ok u => exact .inr ⟨hpc, t, u, rfl, ha, by simp [bind, Except.bind, ha, settle]⟩
  · left
    rw [e]
    exact ⟨hpc, rfl⟩

end Sys2Proof.Machine
end

