-- ==== Sys2Proof/Laws/Exec.lean ====
section
/-! SUPPORT. What `exec` and `step` can do, said once: every meaning is its handler in the frame of a step. -/

namespace Sys2Proof.Machine

/-- The handler of each instruction (R87). -/
def handle : Instr → State → Except Raised State
  | .hlt => handleHlt
  | .ldi a b => handleLdi a b
  | .prn a => handlePrn a
  | .mul a b => handleAlu 0xA2#8 a b
  | .add a b => handleAlu 0xA0#8 a b
  | .push a => handlePush a
  | .pop a => handlePop a
  | .call a => handleCall a
  | .ret => handleRet

theorem exec_eq_runHandler (i : Instr) (s : State) : exec i s = runHandler i (handle i) s := by
  cases i <;> rfl

/-- Everything `exec` can do: take a fault from the state it began with, or answer what handler and advance make of it. -/
theorem exec_cases (i : Instr) (s : State) :
    (∃ r, exec i s = .next (faultEntry r i.opcode s)) ∨
    (s.pc.toNat ≤ 253 ∧ ∃ t u, handle i s = .ok t ∧ afterHandler i s.pc t = .ok u ∧ exec i s = .next u) := by
  rw [exec_eq_runHandler]
  rcases runHandler_cases i (handle i) s with ⟨_, h⟩ | ⟨_, r, _, h⟩ | ⟨_, _, r, _, _, h⟩ | h
  · exact .inl ⟨_, h⟩
  · exact .inl ⟨r, h⟩
  · exact .inl ⟨r, h⟩
  · exact .inr h

/-- What a handler that answers can have changed (R22, R33, R42): one case per instruction. -/
theorem handle_ok_cases {i : Instr} {s t : State} (h : handle i s = .ok t) :
    (i = .hlt ∧ t = s.setStatus .halted) ∨
    (∃ a b r, i = .ldi a b ∧ r.val = a.toNat ∧ t = s.setReg r b) ∨
    (∃ a r, i = .prn a ∧ r.val = a.toNat ∧ t = s.emit (s.getReg r)) ∨
    (∃ a b r q, i = .mul a b ∧ r.val = a.toNat ∧ q.val = b.toNat ∧ t = s.setReg r (s.getReg r * s.getReg q)) ∨
    (∃ a b r q, i = .add a b ∧ r.val = a.toNat ∧ q.val = b.toNat ∧ t = s.setReg r (s.getReg r + s.getReg q)) ∨
    (∃ a r, i = .push a ∧ r.val = a.toNat ∧ 1 ≤ s.sp.toNat ∧ s.stackFloor.toNat ≤ pushAddr s ∧
      t = (s.setSp (BitVec.ofNat 8 (pushAddr s))).writeByte (pushAddr s) (s.getReg r)) ∨
    (∃ a r, i = .pop a ∧ r.val = a.toNat ∧ s.sp.toNat ≤ 254 ∧
      t = (s.setSp (BitVec.ofNat 8 (s.sp.toNat + 1))).setReg r (s.readByte s.sp.toNat)) ∨
    (∃ a r, i = .call a ∧ r.val = a.toNat ∧ 1 ≤ s.sp.toNat ∧ s.stackFloor.toNat ≤ pushAddr s ∧
      t = ((s.setSp (BitVec.ofNat 8 (pushAddr s))).writeByte (pushAddr s) (returnAddr s)).setPc (s.getReg r)) ∨
    (i = .ret ∧ s.sp.toNat ≤ 254 ∧
      t = (s.setSp (BitVec.ofNat 8 (s.sp.toNat + 1))).setPc (s.readByte s.sp.toNat)) := by
  cases i with
  | hlt => exact .inl ⟨rfl, (Except.ok.inj h).symm⟩
  | ldi a b =>
    right; left
    rcases regIndex_cases a with ⟨r, hr, e⟩ | ⟨_, e⟩ <;> simp [handle, handleLdi, e, bind, Except.bind, pure, Except.pure, immediate] at h
    exact ⟨a, b, r, rfl, hr, h.symm⟩
  | prn a =>
    right; right; left
    rcases regIndex_cases a with ⟨r, hr, e⟩ | ⟨_, e⟩ <;> simp [handle, handlePrn, e, bind, Except.bind, pure, Except.pure] at h
    exact ⟨a, r, rfl, hr, h.symm⟩
  | mul a b =>
    right; right; right; left
    rcases regIndex_cases a with ⟨r, hr, e⟩ | ⟨_, e⟩ <;> rcases regIndex_cases b with ⟨q, hq, f⟩ | ⟨_, f⟩ <;>
      simp [handle, handleAlu, e, f, bind, Except.bind, pure, Except.pure, alu_mul, AluOutput.value] at h
    exact ⟨a, b, r, q, rfl, hr, hq, h.symm⟩
  | add a b =>
    right; right; right; right; left
    rcases regIndex_cases a with ⟨r, hr, e⟩ | ⟨_, e⟩ <;> rcases regIndex_cases b with ⟨q, hq, f⟩ | ⟨_, f⟩ <;>
      simp [handle, handleAlu, e, f, bind, Except.bind, pure, Except.pure, alu_add, AluOutput.value] at h
    exact ⟨a, b, r, q, rfl, hr, hq, h.symm⟩
  | push a =>
    right; right; right; right; right; left
    rcases regIndex_cases a with ⟨r, hr, e⟩ | ⟨_, e⟩ <;> simp [handle, handlePush, e, bind, Except.bind] at h
    rcases pushByte_cases (s.getReg r) s with ⟨_, f⟩ | ⟨_, _, f⟩ | ⟨h1, h2, f⟩ <;> rw [f] at h
    · cases h
    · cases h
    · exact ⟨a, r, rfl, hr, h1, h2, (Except.ok.inj h).symm⟩
  | pop a =>
    right; right; right; right; right; right; left
    rcases regIndex_cases a with ⟨r, hr, e⟩ | ⟨_, e⟩ <;> simp [handle, handlePop, e, bind, Except.bind] at h
    rcases popByte_cases s with ⟨_, f⟩ | ⟨h1, f⟩ <;> rw [f] at h
    · cases h
    · exact ⟨a, r, rfl, hr, h1, (Except.ok.inj h).symm⟩
  | call a =>
    right; right; right; right; right; right; right; left
    rcases regIndex_cases a with ⟨r, hr, e⟩ | ⟨_, e⟩ <;> simp [handle, handleCall, e, bind, Except.bind] at h
    rcases pushByte_cases (returnAddr s) s with ⟨_, f⟩ | ⟨_, _, f⟩ | ⟨h1, h2, f⟩ <;> rw [f] at h
    · cases h
    · cases h
    · exact ⟨a, r, rfl, hr, h1, h2, (Except.ok.inj h).symm⟩
  | ret =>
    right; right; right; right; right; right; right; right
    simp only [handle, handleRet] at h
    rcases popByte_cases s with ⟨_, f⟩ | ⟨h1, f⟩ <;> rw [f] at h
    · cases h
    · exact ⟨rfl, h1, (Except.ok.inj h).symm⟩

/-- Everything a step of a running core can do (R82): the operand fetch or the dispatch raises, or the decoded instruction
is executed. -/
theorem step_cases {s : State} (hs : s.status = .running) :
    (254 ≤ s.pc.toNat ∧ step s = .next (faultEntry (.outOfRange .mem 256) s.fetchOpcode s)) ∨
    (s.pc.toNat ≤ 253 ∧ dispatch s.fetchOpcode = none ∧
      step s = .next (faultEntry .unknownOpcode s.fetchOpcode s)) ∨
    (s.pc.toNat ≤ 253 ∧ ∃ i, decode s.fetchOpcode s.operandA s.operandB = .ok i ∧ step s = exec i s) := by
  simp only [step, sequence, hs, stepRunning, fetchOperands]
  rcases checkOperandFetch_cases s.pc with ⟨hpc, e⟩ | ⟨hpc, e⟩
  · right
    rw [e]
    cases hd : dispatch s.fetchOpcode with
    | none => exact .inl ⟨hpc, rfl, by simp [bind, Except.bind, pure, Except.pure, decode, hd, settle]⟩
    | some h =>
      exact .inr ⟨hpc, h.assemble s.operandA s.operandB, by simp [decode, hd],
        by simp [bind, Except.bind, pure, Except.pure, decode, hd]⟩
  · exact .inl ⟨hpc, by rw [e]; rfl⟩

/-- A core that is not running does not change (R81, V45). -/
theorem step_of_not_running {s : State} (h : s.status ≠ .running) : step s = .next s := by
  cases hs : s.status <;> simp_all [step, sequence]

end Sys2Proof.Machine
end

