-- ==== Sys2Proof/Laws/HostPort.lean ====
section
/-! SUPPORT. What each host action and each host read can answer, once. -/

namespace Sys2Proof.Machine

/-- Everything a host action can do (R80, R214). -/
theorem hostAct_cases {act : HostAction} {s t : State} (h : hostAct act s = some t) :
    (∃ x, act = .reset x ∧ t = hostReset x s) ∨
    (act = .start ∧ s.status = .reset ∧ t = s.setStatus .running) ∨
    (act = .start ∧ s.ended = true ∧ t = s) ∨
    (∃ a v, act = .writeByte a v ∧ s.status = .reset ∧ t = s.writeByte a.toNat v) ∨
    (∃ l, act = .writeStackFloor l ∧ s.status = .reset ∧ l ≤ 256 ∧ t = s.setStackFloor (BitVec.ofNat 9 l)) := by
  cases act with
  | reset x => exact .inl ⟨x, rfl, (Option.some.inj h).symm⟩
  | start => cases hs : s.status <;> simp_all [hostAct, State.ended]
  | writeByte a v => simp_all [hostAct]
  | writeStackFloor l => simp_all [hostAct]

/-- Everything a host read can answer. -/
theorem hostRead_eq_some_iff {item : HostItem} {s : State} {v : HostValue} :
    hostRead item s = some v ↔ hostMayRead s.status item = true ∧ v = s.hostValue item := by
  rw [hostRead]
  split
  · exact ⟨fun h => ⟨‹_›, (Option.some.inj h).symm⟩, fun h => congrArg some h.2.symm⟩
  · exact ⟨nofun, fun h => absurd h.1 ‹_›⟩

@[simp] theorem State.length_cells (s : State) : s.cells.length = 256 := by simp [State.cells]

theorem State.getElem?_cells (s : State) {n : Nat} (h : n < 256) : s.cells[n]? = some (s.readByte n) := by
  simp [State.cells, h]

end Sys2Proof.Machine
end

