-- ==== Sys2Proof/Laws/PerInstr.lean ====
section
/-! SUPPORT. Facts about every instruction as syntax, one lemma per constructor. -/

namespace Sys2Proof.Laws

/-- The encoding is as long as the opcode's top two bits say (R60), 1 to 3 bytes. -/
def EncodedLength.Statement (i : Instr) : Prop :=
  (encode i).length = i.length ∧ 1 ≤ i.length ∧ i.length ≤ 3

theorem encodedLength_of_operands (i : Instr) (h : i.operandBytes.length ≤ 2) : EncodedLength.Statement i := by
  have e := length_eq_operandBytes i
  exact ⟨by rw [encode, List.length_cons, e], by omega, by omega⟩

theorem EncodedLength.hlt : EncodedLength.Statement .hlt := encodedLength_of_operands _ (by simp [Instr.operandBytes])
theorem EncodedLength.ldi (a b : Byte) : EncodedLength.Statement (.ldi a b) := encodedLength_of_operands _ (by simp [Instr.operandBytes])
theorem EncodedLength.prn (a : Byte) : EncodedLength.Statement (.prn a) := encodedLength_of_operands _ (by simp [Instr.operandBytes])
theorem EncodedLength.mul (a b : Byte) : EncodedLength.Statement (.mul a b) := encodedLength_of_operands _ (by simp [Instr.operandBytes])
theorem EncodedLength.add (a b : Byte) : EncodedLength.Statement (.add a b) := encodedLength_of_operands _ (by simp [Instr.operandBytes])
theorem EncodedLength.push (a : Byte) : EncodedLength.Statement (.push a) := encodedLength_of_operands _ (by simp [Instr.operandBytes])
theorem EncodedLength.pop (a : Byte) : EncodedLength.Statement (.pop a) := encodedLength_of_operands _ (by simp [Instr.operandBytes])
theorem EncodedLength.call (a : Byte) : EncodedLength.Statement (.call a) := encodedLength_of_operands _ (by simp [Instr.operandBytes])
theorem EncodedLength.ret : EncodedLength.Statement .ret := encodedLength_of_operands _ (by simp [Instr.operandBytes])

end Sys2Proof.Laws
end

