-- ==== Sys2Proof/Tests/Slice0.lean ====
section
/-! SUPPORT. Small tests, each expected value from the spec (its vector or example is named), and for every statement with
hypotheses a concrete state and operands that meet them. -/

namespace Sys2Proof.Tests

open Sys2Proof.Machine

/-! ### Helpers -/

/-- A running core with the given bytes in memory. -/
def at' (pc sp : Byte) (floor : BitVec 9) (regs : Vector Byte 8) (mem : Memory) : State :=
  { State.reset with status := .running, pc := pc, sp := sp, stackFloor := floor, regs := regs, mem := mem }

/-- x[0] = u, x[1] = v, x[4] = w, the other registers 7. -/
def rf (u v w : Byte) : Vector Byte 8 := #v[u, v, 7, 7, w, 7, 7, 7]

def isNext : Outcome → Bool
  | .next _ => true
  | _ => false

def result (s : State) : Outcome → State
  | .next t => t
  | _ => s

theorem eq_next_result (s : State) {o : Outcome} (h : isNext o = true) : o = .next (result s o) := by
  cases o <;> first | rfl | cases h

/-- The state after one step. -/
def after (s : State) : State := result s (step s)

/-- The state after one instruction. -/
def afterExec (i : Instr) (s : State) : State := result s (exec i s)

/-! ### WellFormed refuses an index above 7 in every register operand (R23) -/

theorem test_illFormed_refused :
    (Instr.ldi 8 5).wellFormed = false ∧ (Instr.prn 8).wellFormed = false ∧ (Instr.mul 8 0).wellFormed = false ∧
    (Instr.mul 3 9).wellFormed = false ∧ (Instr.add 8 200).wellFormed = false ∧ (Instr.add 0 8).wellFormed = false ∧
    (Instr.push 8).wellFormed = false ∧ (Instr.pop 10).wellFormed = false ∧ (Instr.call 255).wellFormed = false := by
  decide

/-- The immediate of LDI is no register index (R64). -/
theorem test_wellFormed_accepted :
    (Instr.ldi 7 255).wellFormed = true ∧ (Instr.mul 7 7).wellFormed = true ∧ Instr.ret.wellFormed = true := by
  decide

/-! ### Decoding: words written out from R61 and R65, operands from the spec's examples -/

theorem test_decode_basic :
    decodeBytes [0b00000001#8, 0xAA#8, 0xBB#8] = .ok .hlt ∧
    decodeBytes [0b10000010#8, 0x00#8, 0x08#8] = .ok (.ldi 0 8) ∧
    decodeBytes [0b01000111#8, 0x00#8, 0xC8#8] = .ok (.prn 0) := ⟨rfl, rfl, rfl⟩

theorem test_decode_alu :
    decodeBytes [0b10100010#8, 0x03#8, 0x09#8] = .ok (.mul 3 9) ∧
    decodeBytes [0b10100000#8, 0x08#8, 0xC8#8] = .ok (.add 8 200) := ⟨rfl, rfl⟩

theorem test_decode_stack :
    decodeBytes [0b01000101#8, 0x03#8, 0x46#8] = .ok (.push 3) ∧
    decodeBytes [0b01000110#8, 0x0A#8, 0x01#8] = .ok (.pop 10) := ⟨rfl, rfl⟩

theorem test_decode_call_return :
    decodeBytes [0b01010000#8, 0x01#8, 0x47#8] = .ok (.call 1) ∧
    decodeBytes [0b00010001#8, 0x00#8, 0x00#8] = .ok .ret := ⟨rfl, rfl⟩

/-- 0x00 is no NOP (V1), and bytes beside the nine are rejected (R67). -/
theorem test_decode_rejects :
    decodeBytes [0x00#8, 0#8, 0#8] = .error (.unknownOpcode 0x00#8) ∧
    decodeBytes [0xA1#8, 0#8, 0#8] = .error (.unknownOpcode 0xA1#8) ∧
    decodeBytes [0xC2#8, 0#8, 0#8] = .error (.unknownOpcode 0xC2#8) ∧
    decodeBytes [0x01#8] = .error .truncated := ⟨rfl, rfl, rfl, rfl⟩

/-- Table words: byte k of the instruction is bits 8k+7..8k; bits the table does not give are 0. -/
theorem test_tableWord :
    decodeTableWord 8 0x01 = some .hlt ∧ decodeTableWord 8 0x82 = some (.ldi 0 0) ∧
    decodeTableWord 24 0x080082 = some (.ldi 0 8) ∧ decodeTableWord 16 0x0150 = some (.call 1) ∧
    decodeTableWord 8 0x0150 = some (.call 0) ∧ decodeTableWord 8 0xFF = none := by decide

theorem test_encode : encode (.mul 0 1) = [0xA2#8, 0x00#8, 0x01#8] ∧ encode .ret = [0x11#8] := by decide

/-- Program P1's image, byte for byte. -/
theorem test_disassemble_p1 :
    disassemble 5 [0x82#8, 0x00#8, 0x08#8, 0x82#8, 0x01#8, 0x09#8, 0xA2#8, 0x00#8, 0x01#8, 0x47#8, 0x00#8, 0x01#8] =
      .ok [.ldi 0 8, .ldi 1 9, .mul 0 1, .prn 0, .hlt] := rfl

/-- Every row runs as the first instruction after reset. -/
theorem test_withFetchWord :
    [0x01, 0x82, 0x47, 0xA2, 0xA0, 0x45, 0x46, 0x50, 0x11].all (fun w =>
      isNext (step (State.reset.withFetchWord 8 w)) &&
        decide ((after (State.reset.withFetchWord 8 w)).status ≠ .faulted)) = true := by decide

/-- The codes of R27, R28 and R180. -/
theorem test_codes :
    Status.running.code = 1 ∧ Status.halted.code = 2 ∧ Status.faulted.code = 3 ∧
    FaultKind.unknownOpcode.code = 1 ∧ FaultKind.outOfRangeAccess.code = 2 ∧ FaultKind.unsupportedAluOp.code = 3 ∧
    FaultKind.stackCollision.code = 4 ∧ FaultLoc.mem.code = 1 ∧ FaultLoc.reg.code = 2 ∧ FaultLoc.pc.code = 3 := by decide

/-- FAULT_VAL -1 in 10-bit two's complement (R28). -/
theorem test_faultVal_minus_one : (Raised.outOfRange .mem (-1)).val = 0b1111111111#10 := by decide

/-! ### One step each; the vectors are those of 95_test_vectors.md -/

/-- V3. -/
theorem test_hlt : after (at' 11 0xF4 0 (rf 0 0 0) [(11, 0x01), (12, 0), (13, 0)]) =
    { at' 11 0xF4 0 (rf 0 0 0) [(11, 0x01), (12, 0), (13, 0)] with status := .halted } := by decide

/-- V2b: HLT at 254 faults, and does not halt. -/
theorem test_hlt_at_254 : (after (at' 254 0xF4 0 (rf 0 0 0) [(254, 0x01), (255, 0)])).fault =
    ⟨.outOfRangeAccess, 254, 0x01, .mem, 256⟩ := by decide

/-- V5: R7 is an ordinary register; sp is unchanged. -/
theorem test_ldi : (after (at' 0 0xF4 0 (rf 0 0 0) [(0, 0x82), (1, 7), (2, 255)])).regs[7] = 255 ∧
    (after (at' 0 0xF4 0 (rf 0 0 0) [(0, 0x82), (1, 7), (2, 255)])).sp = 0xF4 := by decide

/-- V2a: the next-pc fault discards the register write. -/
theorem test_ldi_at_253 : after (at' 253 0xF4 0 (rf 1 2 3) [(253, 0x82), (254, 3), (255, 7)]) =
    faultEntry (.outOfRange .pc 256) 0x82 (at' 253 0xF4 0 (rf 1 2 3) [(253, 0x82), (254, 3), (255, 7)]) := by decide

/-- V9, and V2g: the unused operand byte 0xC8 is not checked as an index. -/
theorem test_prn : (after (at' 9 0xF4 0 (rf 72 0 0) [(9, 0x47), (10, 0), (11, 0xC8)])).outputLog = [72] ∧
    (after (at' 9 0xF4 0 (rf 72 0 0) [(9, 0x47), (10, 0), (11, 0xC8)])).pc = 11 := by decide

/-- V10b: no output event. -/
theorem test_prn_index_8 : (after (at' 0 0xF4 0 (rf 1 1 1) [(0, 0x47), (1, 8), (2, 0)])).fault.val = 8 ∧
    (after (at' 0 0xF4 0 (rf 1 1 1) [(0, 0x47), (1, 8), (2, 0)])).outputLog = [] := by decide

/-- V14. -/
theorem test_mul : (after (at' 6 0xF4 0 (rf 8 9 0) [(6, 0xA2), (7, 0), (8, 1)])).regs = rf 72 9 0 ∧
    (after (at' 6 0xF4 0 (rf 8 9 0) [(6, 0xA2), (7, 0), (8, 1)])).pc = 9 := by decide

/-- V18. -/
theorem test_mul_index_b : (after (at' 0 0xF4 0 (rf 0 0 0) [(0, 0xA2), (1, 3), (2, 9)])).fault =
    ⟨.outOfRangeAccess, 0, 0xA2, .reg, 9⟩ := by decide

/-- V13 and V15: the wrap, and one register as source and destination. -/
theorem test_add : (after (at' 6 0xF4 0 (rf 200 100 0) [(6, 0xA0), (7, 0), (8, 1)])).regs = rf 44 100 0 ∧
    (after (at' 0 0xF4 0 (rf 0 0 128) [(0, 0xA0), (1, 4), (2, 4)])).regs = rf 0 0 0 := by decide

/-- V20: the register check comes before the next-pc check. -/
theorem test_add_priority : (after (at' 253 0xF4 0 (rf 0 0 0) [(253, 0xA0), (254, 9), (255, 0)])).fault.loc = .reg := by
  decide

/-- V23. -/
theorem test_push : (after (at' 6 0xF4 12 (rf 42 0 0) [(6, 0x45), (7, 0), (8, 0)])).mem =
      [(6, 0x45), (7, 0), (8, 0), (0xF3, 42)] ∧
    (after (at' 6 0xF4 12 (rf 42 0 0) [(6, 0x45), (7, 0), (8, 0)])).sp = 0xF3 := by decide

/-- V25, and V27a: underflow is tested before collision. -/
theorem test_push_bounds :
    (after (at' 0 12 12 (rf 1 0 0) [(0, 0x45), (1, 0), (2, 0)])).fault = ⟨.stackCollision, 0, 0x45, .mem, 11⟩ ∧
    (after (at' 0 0 5 (rf 1 0 0) [(0, 0x45), (1, 0), (2, 0)])).fault = ⟨.outOfRangeAccess, 0, 0x45, .mem, -1⟩ := by decide

/-- V24. -/
theorem test_pop : (after (at' 8 0xF3 12 (rf 0 0 0) [(8, 0x46), (9, 4), (10, 0), (0xF3, 42)])).regs = rf 0 0 42 ∧
    (after (at' 8 0xF3 12 (rf 0 0 0) [(8, 0x46), (9, 4), (10, 0), (0xF3, 42)])).sp = 0xF4 := by decide

/-- V28. -/
theorem test_pop_at_255 : (after (at' 0 0xFF 0 (rf 1 1 1) [(0, 0x46), (1, 0), (2, 0)])).fault =
    ⟨.outOfRangeAccess, 0, 0x46, .mem, 256⟩ := by decide

/-- V33: the return address is pc + 2. -/
theorem test_call : (after (at' 6 0xF4 15 (rf 0 11 0) [(6, 0x50), (7, 1), (8, 0)])).readByte 0xF3 = 8 ∧
    (after (at' 6 0xF4 15 (rf 0 11 0) [(6, 0x50), (7, 1), (8, 0)])).pc = 11 := by decide

/-- V37. -/
theorem test_call_collision : after (at' 0 12 12 (rf 0 40 0) [(0, 0x50), (1, 1), (2, 0)]) =
    faultEntry (.stackCollision 11) 0x50 (at' 0 12 12 (rf 0 40 0) [(0, 0x50), (1, 1), (2, 0)]) := by decide

/-- V34. -/
theorem test_ret : (after (at' 14 0xF3 15 (rf 0 0 0) [(14, 0x11), (15, 0), (16, 0), (0xF3, 8)])).pc = 8 ∧
    (after (at' 14 0xF3 15 (rf 0 0 0) [(14, 0x11), (15, 0), (16, 0), (0xF3, 8)])).sp = 0xF4 := by decide

/-- V40. -/
theorem test_ret_at_255 : (after (at' 5 0xFF 0 (rf 0 0 0) [(5, 0x11), (6, 0), (7, 0)])).fault =
    ⟨.outOfRangeAccess, 5, 0x11, .mem, 256⟩ := by decide

/-- V2d: at pc 255 the operand fetch faults before dispatch sees the illegal byte. -/
theorem test_illegal_at_255 : (after (at' 255 0xF4 0 (rf 0 0 0) [(255, 0xFF)])).fault =
    ⟨.outOfRangeAccess, 255, 0xFF, .mem, 256⟩ := by decide

/-- P6, booted: the operand bytes past the image are MEM_INIT and play no part. -/
theorem test_boot_unknown_opcode :
    (boot (rf 0 0 0) [0xFF#8, 0x01#8] State.reset).map (fun s => (after s).fault) =
      some ⟨.unknownOpcode, 0, 0xFF, .nowhere, 0⟩ := by decide

/-- R105's examples. -/
theorem test_render : HostText.renderLog [72, 0, 255] = ['7', '2', '\n', '0', '\n', '2', '5', '5', '\n'] := by decide

/-- P1's first two lines as a program file, with a comment and a blank line (R70). -/
theorem test_programFile :
    HostText.parseProgramFile (['1', '0', '0', '0', '0', '0', '1', '0', ' ', '#', ' ', 'L', '\n', '\n'] ++
      ['0', '0', '0', '0', '1', '0', '0', '0', '\n']) = some [0x82#8, 0x08#8] := by decide

/-- The comma and the blank form of R69, and its hexadecimal immediates. -/
theorem test_assembly :
    HostText.parseStatement ['L', 'D', 'I', ' ', 'R', '0', ' ', '8'] = some (.ldi 0 8) ∧
    HostText.parseStatement ['L', 'D', 'I', ' ', 'R', '1', ',', ' ', '0', 'x', 'F', '3'] = some (.ldi 1 0xF3) ∧
    HostText.parseStatement ['P', 'R', 'N', ' ', 'R', '8'] = none ∧
    HostText.printStatement (.mul 0 1) = ['M', 'U', 'L', ' ', 'R', '0', ',', ' ', 'R', '1'] := by decide

/-- What the host may read: memory in RESET, HALTED and FAULTED (R214), STATUS and the fault record always (R6), output while
RUNNING (R214), everything at the end of a run (D23, R192). -/
theorem test_hostMayRead :
    [Status.reset, .running, .halted, .faulted].map (fun c => hostMayRead c .memory) = [true, false, true, true] ∧
    [Status.reset, .running, .halted, .faulted].map (fun c => hostMayRead c .faultRecord) = [true, true, true, true] ∧
    hostMayRead .running .outputLog = true ∧ hostMayRead .running .pc = false ∧
    hostMayRead .halted .stackFloor = true := by decide

/-- R53: in each control state, one user of the memory. -/
theorem test_memoryContract :
    [Status.reset, .running, .halted, .faulted].map (fun c =>
      [MemoryUse.core, .hostWrite, .hostRead].map (memoryContract c)) =
      [[false, true, false], [true, false, false], [false, false, true], [false, false, true]] := by decide

/-- R70's form with a comment alone on a line (log entry 8), and a line that is no literal. -/
theorem test_programFile_lines :
    HostText.parseProgramFile ['#', ' ', '1', '\n', '0', '0', '0', '0', '0', '0', '0', '1'] = some [0x01#8] ∧
    HostText.parseProgramFile ['0', '0', '0', '1', '\n'] = none := by decide

/-! ### Witnesses: for each statement, states and operands that meet the hypotheses of each clause, at the edge of its range -/

/-- Memory for an instruction at 252 and one at 253. -/
def edge (pc : Byte) (ir a b : Byte) : Memory := [(pc.toNat, ir), (pc.toNat + 1, a), (pc.toNat + 2, b)]

/-- The edge state: the instruction `ir a b` at `pc`. -/
def sEdge (pc sp : Byte) (floor : BitVec 9) (ir a b : Byte) : State := at' pc sp floor (rf 5 6 7) (edge pc ir a b)

theorem witness_IllegalBytesFault : (sEdge 253 0xF4 0 0xC0 0 0).status = .running ∧
    (sEdge 253 0xF4 0 0xC0 0 0).pc.toNat ≤ 253 ∧
    dispatch ((sEdge 253 0xF4 0 0xC0 0 0).readByte (sEdge 253 0xF4 0 0xC0 0 0).pc.toNat) = none := by decide

theorem witness_DecodeEncodeRoundTrip : decode 0x45#8 0xFF#8 0x46#8 = .ok (.push 0xFF) := rfl

theorem witness_InstructionStreamsAreUnambiguous : [Instr.ret, .ldi 0 3].length ≤ 2 ∧
    [Instr.ret, .ldi 0 3].flatMap encode = [Instr.ret, .ldi 0 3].flatMap encode := ⟨by decide, rfl⟩

theorem witness_EncodedInstructionRuns : (sEdge 253 0xF4 0 0x45 3 0x46).status = .running ∧
    (sEdge 253 0xF4 0 0x45 3 0x46).pc.toNat ≤ 253 ∧
    ∀ k (h : k < (encode (.push 3)).length),
      (sEdge 253 0xF4 0 0x45 3 0x46).readByte ((sEdge 253 0xF4 0 0x45 3 0x46).pc.toNat + k) = (encode (.push 3))[k] := by
  decide

theorem witness_UnusedOperandBytesIgnored : operandCount 0x47#8 = 1 ∧ operandCount 0x01#8 = 0 := by decide

theorem witness_AluFunction : (0x47#8 : Byte) ≠ 0xA0#8 ∧ (0x47#8 : Byte) ≠ 0xA2#8 := by decide

theorem witness_AluLaws : 0xA2#8 ∈ [0xA0#8, 0xA2#8] ∧ alu 0xA2#8 16 16 = .result 0 ∧ alu 0xA2#8 16 255 = .result 240 ∧
    alu 0xA0#8 255 1 = .result 0 ∧ alu 0xA2#8 16 1 = .result 16 := by decide

theorem witness_UnsupportedAluOpNeverRecorded : State.reset.fault.kind ≠ .unsupportedAluOp ∧
    step State.reset = .next State.reset ∧ ∀ h, dispatch 0x47#8 = some h → h.isAlu = false :=
  ⟨by decide, rfl, by rintro h ⟨⟩; rfl⟩

theorem witness_HltRule : (sEdge 253 0xF4 0 0x01 0 0).pc.toNat ≤ 253 ∧ 254 ≤ (sEdge 254 0xF4 0 0x01 0 0).pc.toNat ∧
    (sEdge 253 0xF4 0 0x01 0 0).status ≠ .halted ∧
    step (sEdge 253 0xF4 0 0x01 0 0) = .next (after (sEdge 253 0xF4 0 0x01 0 0)) ∧
    (after (sEdge 253 0xF4 0 0x01 0 0)).status = .halted :=
  ⟨by decide, by decide, by decide, eq_next_result _ (by decide), by decide⟩

/-- The greatest register index, the least index that faults, and pc at the edges of each clause. -/
theorem witness_LdiRule : (7#8 : Byte).toNat = (7 : Fin 8).val ∧ 7 < (8#8 : Byte).toNat ∧
    (sEdge 252 0xF4 0 0x82 7 0).pc.toNat ≤ 252 ∧ (sEdge 253 0xF4 0 0x82 7 0).pc.toNat = 253 ∧
    254 ≤ (sEdge 254 0xF4 0 0x82 7 0).pc.toNat := by decide

theorem witness_PrnRule : (7#8 : Byte).toNat = (7 : Fin 8).val ∧ 7 < (8#8 : Byte).toNat ∧
    (sEdge 253 0xF4 0 0x47 7 0).pc.toNat ≤ 253 ∧ 254 ≤ (sEdge 254 0xF4 0 0x47 7 0).pc.toNat := by decide

theorem witness_AddRule : (7#8 : Byte).toNat = (7 : Fin 8).val ∧ 7 < (8#8 : Byte).toNat ∧
    (sEdge 252 0xF4 0 0xA0 7 8).pc.toNat ≤ 252 ∧ (sEdge 253 0xF4 0 0xA0 7 8).pc.toNat = 253 ∧
    254 ≤ (sEdge 254 0xF4 0 0xA0 7 8).pc.toNat := by decide

theorem witness_MulRule : (7#8 : Byte).toNat = (7 : Fin 8).val ∧ 7 < (8#8 : Byte).toNat ∧
    (sEdge 252 0xF4 0 0xA2 7 8).pc.toNat ≤ 252 ∧ (sEdge 253 0xF4 0 0xA2 7 8).pc.toNat = 253 ∧
    254 ≤ (sEdge 254 0xF4 0 0xA2 7 8).pc.toNat := by decide

/-- The last allowed push, the first refused one, and sp = 0. -/
theorem witness_PushRule : (7#8 : Byte).toNat = (7 : Fin 8).val ∧ 7 < (8#8 : Byte).toNat ∧
    (sEdge 253 13 12 0x45 7 0).pc.toNat ≤ 253 ∧ 1 ≤ (sEdge 253 13 12 0x45 7 0).sp.toNat ∧
    (sEdge 253 13 12 0x45 7 0).stackFloor.toNat ≤ (sEdge 253 13 12 0x45 7 0).sp.toNat - 1 ∧
    (sEdge 253 12 12 0x45 7 0).sp.toNat - 1 < (sEdge 253 12 12 0x45 7 0).stackFloor.toNat ∧
    (sEdge 253 0 12 0x45 7 0).sp.toNat = 0 ∧ 254 ≤ (sEdge 254 13 12 0x45 7 0).pc.toNat := by decide

theorem witness_CallRule : (7#8 : Byte).toNat = (7 : Fin 8).val ∧ 7 < (8#8 : Byte).toNat ∧
    (sEdge 253 13 12 0x50 7 0).pc.toNat ≤ 253 ∧ 1 ≤ (sEdge 253 13 12 0x50 7 0).sp.toNat ∧
    (sEdge 253 13 12 0x50 7 0).stackFloor.toNat ≤ (sEdge 253 13 12 0x50 7 0).sp.toNat - 1 ∧
    (sEdge 253 12 12 0x50 7 0).sp.toNat - 1 < (sEdge 253 12 12 0x50 7 0).stackFloor.toNat ∧
    (sEdge 253 0 12 0x50 7 0).sp.toNat = 0 ∧ 254 ≤ (sEdge 254 13 12 0x50 7 0).pc.toNat := by decide

theorem witness_PopRule : (7#8 : Byte).toNat = (7 : Fin 8).val ∧ 7 < (8#8 : Byte).toNat ∧
    (sEdge 253 254 0 0x46 7 0).pc.toNat ≤ 253 ∧ (sEdge 253 254 0 0x46 7 0).sp.toNat ≤ 254 ∧
    (sEdge 253 255 0 0x46 7 0).sp.toNat = 255 ∧ 254 ≤ (sEdge 254 254 0 0x46 7 0).pc.toNat := by decide

theorem witness_RetRule : (sEdge 253 254 0 0x11 0 0).pc.toNat ≤ 253 ∧ (sEdge 253 254 0 0x11 0 0).sp.toNat ≤ 254 ∧
    (sEdge 253 255 0 0x11 0 0).sp.toNat = 255 ∧ 254 ≤ (sEdge 254 254 0 0x11 0 0).pc.toNat := by decide

theorem witness_PushMicroOperation : (sEdge 0 0 5 0x45 0 0).sp.toNat = 0 ∧
    1 ≤ (sEdge 0 12 12 0x45 0 0).sp.toNat ∧
    (sEdge 0 12 12 0x45 0 0).sp.toNat - 1 < (sEdge 0 12 12 0x45 0 0).stackFloor.toNat ∧
    1 ≤ (sEdge 0 1 0 0x45 0 0).sp.toNat ∧
    (sEdge 0 1 0 0x45 0 0).stackFloor.toNat ≤ (sEdge 0 1 0 0x45 0 0).sp.toNat - 1 := by decide

theorem witness_PopMicroOperation : (sEdge 0 255 0 0x46 0 0).sp.toNat = 255 ∧
    (sEdge 0 254 0 0x46 0 0).sp.toNat ≤ 254 := by decide

theorem witness_OpcodeTableRows : decode 0b00010001#8 0xFF#8 0xFF#8 = .ok .ret := rfl

theorem witness_RegistersReadAndWritten :
    exec (.ldi 1 9) (sEdge 0 0xF4 0 0x82 1 9) = .next (afterExec (.ldi 1 9) (sEdge 0 0xF4 0 0x82 1 9)) ∧
    BitVec.ofNat 8 (0 : Fin 8).val ∉ (Instr.ldi 1 9).registersWritten ∧
    BitVec.ofNat 8 (1 : Fin 8).val ∉ (Instr.ldi 1 9).registersRead ∧
    BitVec.ofNat 8 (1 : Fin 8).val ∈ (Instr.ldi 1 9).registersWritten ∧
    exec (.ldi 1 9) ((sEdge 0 0xF4 0 0x82 1 9).setReg 1 77) =
      .next (afterExec (.ldi 1 9) ((sEdge 0 0xF4 0 0x82 1 9).setReg 1 77)) ∧
    (sEdge 0 0xF4 0 0x82 1 9).status ≠ .faulted ∧ (afterExec (.ldi 1 9) (sEdge 0 0xF4 0 0x82 1 9)).status ≠ .faulted :=
  ⟨eq_next_result _ (by decide), by decide, by decide, by decide, eq_next_result _ (by decide), by decide, by decide⟩

theorem witness_MemoryFrame :
    exec (.push 0) (sEdge 0 13 12 0x45 0 0) = .next (afterExec (.push 0) (sEdge 0 13 12 0x45 0 0)) ∧
    (Instr.push 0).storeAddr (sEdge 0 13 12 0x45 0 0) = some 12 ∧
    exec (.pop 0) (sEdge 0 13 12 0x46 0 0) = .next (afterExec (.pop 0) (sEdge 0 13 12 0x46 0 0)) ∧
    (Instr.pop 0).storeAddr (sEdge 0 13 12 0x46 0 0) = none ∧
    exec (.push 0) (sEdge 0 12 12 0x45 0 0) = .next (afterExec (.push 0) (sEdge 0 12 12 0x45 0 0)) ∧
    (sEdge 0 12 12 0x45 0 0).status ≠ .faulted ∧ (afterExec (.push 0) (sEdge 0 12 12 0x45 0 0)).status = .faulted :=
  ⟨eq_next_result _ (by decide), by decide, eq_next_result _ (by decide), by decide, eq_next_result _ (by decide),
    by decide, by decide⟩

theorem witness_ControlFrame :
    exec (.add 0 1) (sEdge 0 0xF4 0 0xA0 0 1) = .next (afterExec (.add 0 1) (sEdge 0 0xF4 0 0xA0 0 1)) ∧
    (Instr.add 0 1).handler ∉ [Handler.push, Handler.pop, Handler.call, Handler.ret] ∧
    (Instr.add 0 1).handler ≠ Handler.prn ∧ Instr.add 0 1 ≠ .hlt ∧
    (afterExec (.add 0 1) (sEdge 0 0xF4 0 0xA0 0 1)).status ≠ .faulted ∧
    exec .hlt (sEdge 0 0xF4 0 0x01 0 0) = .next (afterExec .hlt (sEdge 0 0xF4 0 0x01 0 0)) ∧
    (afterExec .hlt (sEdge 0 0xF4 0 0x01 0 0)).status ≠ .faulted :=
  ⟨eq_next_result _ (by decide), by decide, by decide, by decide, by decide, eq_next_result _ (by decide), by decide⟩

theorem witness_RegisterIndexChecked : (sEdge 253 0xF4 0 0xA2 7 8).pc.toNat ≤ 253 ∧
    (Instr.mul 7 8).registerOperands.find? (fun a => 7 < a.toNat) = some 8 ∧ (Instr.pop 7).wellFormed = true ∧
    (sEdge 0 255 0 0x46 7 0).fault.loc ≠ .reg ∧
    exec (.pop 7) (sEdge 0 255 0 0x46 7 0) = .next (afterExec (.pop 7) (sEdge 0 255 0 0x46 7 0)) :=
  ⟨by decide, by decide, by decide, by decide, eq_next_result _ (by decide)⟩

theorem witness_StepRunsDecoded : (sEdge 253 0xF4 0 0x50 1 2).status = .running ∧
    (sEdge 253 0xF4 0 0x50 1 2).pc.toNat ≤ 253 ∧
    decode ((sEdge 253 0xF4 0 0x50 1 2).readByte 253) ((sEdge 253 0xF4 0 0x50 1 2).readByte 254)
      ((sEdge 253 0xF4 0 0x50 1 2).readByte 255) = .ok (.call 1) := ⟨by decide, by decide, rfl⟩

theorem witness_StepIdleUnlessRunning : State.reset.status ≠ .running := by decide

theorem witness_OperandFetchFault : (sEdge 254 0xF4 0 0x01 0 0).status = .running ∧
    254 ≤ (sEdge 254 0xF4 0 0x01 0 0).pc.toNat ∧ (sEdge 253 0xF4 0 0x01 0 0).pc.toNat ≤ 253 := by decide

theorem witness_GenericAdvance :
    decode 0x82#8 7#8 9#8 = .ok (.ldi 7 9) ∧
    (sEdge 252 0xF4 0 0x82 7 9).readByte 252 = 0x82 ∧ (sEdge 252 0xF4 0 0x82 7 9).readByte 253 = 7 ∧
    (sEdge 252 0xF4 0 0x82 7 9).readByte 254 = 9 ∧ (sEdge 252 0xF4 0 0x82 7 9).status = .running ∧
    (Instr.ldi 7 9).handler ∉ [Handler.hlt, Handler.call, Handler.ret] ∧
    step (sEdge 252 0xF4 0 0x82 7 9) = .next (after (sEdge 252 0xF4 0 0x82 7 9)) ∧
    (after (sEdge 252 0xF4 0 0x82 7 9)).status = .running ∧
    step (sEdge 253 0xF4 0 0x82 7 9) = .next (after (sEdge 253 0xF4 0 0x82 7 9)) ∧
    (after (sEdge 253 0xF4 0 0x82 7 9)).status = .faulted ∧ (after (sEdge 253 0xF4 0 0x82 7 9)).fault.loc = .pc :=
  ⟨rfl, by decide, by decide, by decide, by decide, by decide, eq_next_result _ (by decide), by decide,
    eq_next_result _ (by decide), by decide, by decide⟩

theorem witness_HltStopsForGood : (sEdge 253 0xF4 0 0x01 0 0).status = .running ∧
    (sEdge 253 0xF4 0 0x01 0 0).pc.toNat ≤ 253 ∧
    (sEdge 253 0xF4 0 0x01 0 0).readByte (sEdge 253 0xF4 0 0x01 0 0).pc.toNat = 0x01#8 := by decide

theorem witness_StatusMovesAsTabled : State.reset.status = .reset ∧ (sEdge 0 0xF4 0 0x01 0 0).status = .running ∧
    step (sEdge 0 0xF4 0 0x01 0 0) = .next (after (sEdge 0 0xF4 0 0x01 0 0)) ∧
    (after (sEdge 0 0xF4 0 0x01 0 0)).status = .halted ∧ (after (sEdge 254 0xF4 0 0x01 0 0)).status = .faulted ∧
    hostAct .start (after (sEdge 0 0xF4 0 0x01 0 0)) = some (after (sEdge 0 0xF4 0 0x01 0 0)) ∧
    hostAct .start State.reset = some (State.reset.setStatus .running) ∧
    (State.reset.setStatus .running).status ≠ State.reset.status :=
  ⟨by decide, by decide, eq_next_result _ (by decide), by decide, by decide, by decide, by decide, by decide⟩

theorem witness_FaultEntryIsPrecise : (sEdge 0 12 12 0x50 1 0).status = .running ∧
    step (sEdge 0 12 12 0x50 1 0) = .next (after (sEdge 0 12 12 0x50 1 0)) ∧
    (after (sEdge 0 12 12 0x50 1 0)).status = .faulted := ⟨by decide, eq_next_result _ (by decide), by decide⟩

/-- A state for each of the nine checks of R184 that can fail, and one for none. -/
theorem witness_FirstFailingCheck :
    firstFault (sEdge 255 0xF4 0 0xFF 0 0) = some (.outOfRange .mem 256) ∧
    firstFault (sEdge 254 0xF4 0 0xFF 0 0) = some (.outOfRange .mem 256) ∧
    firstFault (sEdge 253 0xF4 0 0xFF 0 0) = some .unknownOpcode ∧
    firstFault (sEdge 253 0xF4 0 0xA0 9 9) = some (.outOfRange .reg 9) ∧
    firstFault (sEdge 253 0xF4 0 0xA0 7 8) = some (.outOfRange .reg 8) ∧
    firstFault (sEdge 253 0 5 0x45 7 0) = some (.outOfRange .mem (-1)) ∧
    firstFault (sEdge 253 255 0 0x11 0 0) = some (.outOfRange .mem 256) ∧
    firstFault (sEdge 253 12 12 0x50 7 0) = some (.stackCollision 11) ∧
    firstFault (sEdge 253 0xF4 0 0xA0 7 7) = some (.outOfRange .pc 256) ∧
    firstFault (sEdge 252 0xF4 0 0xA0 7 7) = none ∧ (sEdge 252 0xF4 0 0xA0 7 7).status = .running := by decide

theorem witness_PushPopRoundTrip : (sEdge 0 13 12 0x45 1 0).status = .running ∧
    exec (.push 1) (sEdge 0 13 12 0x45 1 0) = .next (afterExec (.push 1) (sEdge 0 13 12 0x45 1 0)) ∧
    (afterExec (.push 1) (sEdge 0 13 12 0x45 1 0)).status = .running ∧
    exec (.pop 4) (afterExec (.push 1) (sEdge 0 13 12 0x45 1 0)) =
      .next (afterExec (.pop 4) (afterExec (.push 1) (sEdge 0 13 12 0x45 1 0))) ∧
    (afterExec (.pop 4) (afterExec (.push 1) (sEdge 0 13 12 0x45 1 0))).status = .running :=
  ⟨by decide, eq_next_result _ (by decide), by decide, eq_next_result _ (by decide), by decide⟩

theorem witness_LdiPrnRoundTrip : (sEdge 0 0xF4 0 0x82 7 255).status = .running ∧
    exec (.ldi 7 255) (sEdge 0 0xF4 0 0x82 7 255) = .next (afterExec (.ldi 7 255) (sEdge 0 0xF4 0 0x82 7 255)) ∧
    (afterExec (.ldi 7 255) (sEdge 0 0xF4 0 0x82 7 255)).status = .running ∧
    exec (.prn 7) (afterExec (.ldi 7 255) (sEdge 0 0xF4 0 0x82 7 255)) =
      .next (afterExec (.prn 7) (afterExec (.ldi 7 255) (sEdge 0 0xF4 0 0x82 7 255))) ∧
    (afterExec (.prn 7) (afterExec (.ldi 7 255) (sEdge 0 0xF4 0 0x82 7 255))).status = .running :=
  ⟨by decide, eq_next_result _ (by decide), by decide, eq_next_result _ (by decide), by decide⟩

theorem witness_CallRetRoundTrip : (sEdge 253 13 12 0x50 1 0).status = .running ∧
    exec (.call 1) (sEdge 253 13 12 0x50 1 0) = .next (afterExec (.call 1) (sEdge 253 13 12 0x50 1 0)) ∧
    (afterExec (.call 1) (sEdge 253 13 12 0x50 1 0)).status = .running ∧
    exec .ret (afterExec (.call 1) (sEdge 253 13 12 0x50 1 0)) =
      .next (afterExec .ret (afterExec (.call 1) (sEdge 253 13 12 0x50 1 0))) ∧
    (afterExec .ret (afterExec (.call 1) (sEdge 253 13 12 0x50 1 0))).status = .running :=
  ⟨by decide, eq_next_result _ (by decide), by decide, eq_next_result _ (by decide), by decide⟩

theorem exists_of_isOk {ε α : Type} : {x : Except ε α} → x.toBool = true → ∃ t, x = .ok t
  | .ok t, _ => ⟨t, rfl⟩

set_option maxRecDepth 20000 in
/-- STACK_FLOOR at its greatest value with room left, at 0xF4, and at 0 with the stack filled. -/
theorem witness_StackCapacity : (sEdge 0 0xF4 0xF3 0x45 0 0).sp = 0xF4#8 ∧
    (∃ t, pushAll [9#8] (sEdge 0 0xF4 0xF3 0x45 0 0) = .ok t) ∧
    (∃ t, pushAll [] (sEdge 0 0xF4 0xF4 0x45 0 0) = .ok t) ∧
    (∃ t, pushAll (List.replicate 0xF4 9#8) (sEdge 0 0xF4 0 0x45 0 0) = .ok t) := by
  refine ⟨by decide, ⟨_, rfl⟩, ⟨_, rfl⟩, exists_of_isOk (by decide)⟩

theorem witness_BytesBelowFloorIntact :
    runsTo 1 (sEdge 0 13 12 0x45 0 0) (after (sEdge 0 13 12 0x45 0 0)) ∧ 11 < (sEdge 0 13 12 0x45 0 0).stackFloor.toNat :=
  ⟨rfl, by decide⟩

theorem witness_FetchSeesStackWrites : (sEdge 0 0xF4 0 0x45 1 0).status = .running ∧
    exec (.push 1) (sEdge 0 0xF4 0 0x45 1 0) = .next (afterExec (.push 1) (sEdge 0 0xF4 0 0x45 1 0)) ∧
    (afterExec (.push 1) (sEdge 0 0xF4 0 0x45 1 0)).status = .running :=
  ⟨by decide, eq_next_result _ (by decide), by decide⟩

/-- A running state that meets the invariant and whose step takes a fault, and one whose step stores. -/
theorem witness_StepKeepsInv : (sEdge 0 12 12 0x45 0 0).Inv ∧ (sEdge 0 13 12 0x45 0 0).Inv ∧
    step (sEdge 0 12 12 0x45 0 0) = .next (after (sEdge 0 12 12 0x45 0 0)) ∧
    step (sEdge 0 13 12 0x45 0 0) = .next (after (sEdge 0 13 12 0x45 0 0)) ∧
    (after (sEdge 0 12 12 0x45 0 0)).status = .faulted ∧ (after (sEdge 0 13 12 0x45 0 0)).status = .running :=
  ⟨⟨by decide, by decide, fun _ => rfl, nofun, nofun⟩, ⟨by decide, by decide, fun _ => rfl, nofun, nofun⟩,
    eq_next_result _ (by decide), eq_next_result _ (by decide), by decide, by decide⟩

theorem witness_HostActionKeepsInv : State.reset.Inv ∧
    hostAct (.writeStackFloor 256) State.reset = some (State.reset.setStackFloor 256) :=
  ⟨⟨by decide, by decide, fun _ => rfl, nofun, nofun⟩, by decide⟩

theorem witness_BootLoadsTheImage : (List.replicate 256 0x01#8).length ≤ 256 ∧ 256 < (List.replicate 257 0x01#8).length :=
  ⟨by rw [List.length_replicate], by rw [List.length_replicate]; decide⟩

theorem witness_HostActionsAsTabled : State.reset.status = .reset ∧ (sEdge 0 0xF4 0 0x01 0 0).status = .running ∧
    hostAct (.reset (rf 1 2 3)) (sEdge 0 0xF4 0 0x01 0 0) = some (hostReset (rf 1 2 3) (sEdge 0 0xF4 0 0x01 0 0)) ∧
    (after (sEdge 0 0xF4 0 0x01 0 0)).ended = true ∧ (after (sEdge 254 0xF4 0 0x01 0 0)).ended = true ∧
    (after (sEdge 0 0xF4 0 0x01 0 0)).status ≠ .reset ∧ 256 < 257 ∧
    hostAct .start (after (sEdge 0 0xF4 0 0x01 0 0)) = some (after (sEdge 0 0xF4 0 0x01 0 0)) := by decide

theorem witness_MemoryContractKept :
    memoryContract State.reset.status .hostWrite = true ∧ memoryContract State.reset.status .core = false ∧
    memoryContract (after (sEdge 0 0xF4 0 0x01 0 0)).status .hostRead = true := by decide

theorem witness_EndOfRunIsUnique : endsAt 1 (sEdge 0 0xF4 0 0x01 0 0) (after (sEdge 0 0xF4 0 0x01 0 0)) :=
  ⟨rfl, by decide, fun j u hj hu => by
    obtain rfl : j = 0 := by omega
    cases hu
    decide⟩

theorem witness_OutputOnlyByPrn :
    step (sEdge 253 0xF4 0 0x47 7 0) = .next (after (sEdge 253 0xF4 0 0x47 7 0)) ∧
    (after (sEdge 253 0xF4 0 0x47 7 0)).outputLog ≠ (sEdge 253 0xF4 0 0x47 7 0).outputLog ∧
    hostAct .start State.reset = some (State.reset.setStatus .running) ∧ ∀ x, HostAction.start ≠ .reset x :=
  ⟨eq_next_result _ (by decide), by decide, by decide, nofun⟩

theorem witness_AssemblyRoundTrip : (Instr.ldi 7 255).wellFormed = true := by decide

end Sys2Proof.Tests
end

/-! SUPPORT. The statements of 10_state.md, and the layer they rest on: what an instruction can raise, what a committed one
leaves unchanged, and how it depends on one register. -/

namespace Sys2Proof.Machine

/-! ### Sequencing of checks -/

@[simp] theorem ok_bind {ε α β : Type} (a : α) (f : α → Except ε β) : (Except.ok a >>= f) = f a := rfl

@[simp] theorem error_bind {ε α β : Type} (e : ε) (f : α → Except ε β) : (Except.error e >>= f) = .error e := rfl

/-- What follows from a fault of either of two operations follows from a fault of their sequence. -/
theorem bind_error_elim {ε α β : Type} {x : Except ε α} {f : α → Except ε β} {e : ε} {P : Prop} (h : x >>= f = .error e)
    (hx : x = .error e → P) (hf : ∀ a, f a = .error e → P) : P := by
  cases x with
  | error d => exact hx (by simpa using h)
  | ok a => exact hf a h

/-! ### `exec`, forwards: what it answers once the outcome of its handler is known -/

theorem exec_of_pc_ge {i : Instr} {s : State} (hpc : 254 ≤ s.pc.toNat) :
    exec i s = .next (faultEntry (.outOfRange .mem 256) i.opcode s) := by
  simp [exec_eq_runHandler, runHandler, checkOperandFetch_error hpc, settle]

theorem exec_eq_settle {i : Instr} {s : State} (hpc : s.pc.toNat ≤ 253) :
    exec i s = settle i.opcode s (handle i s >>= afterHandler i s.pc) := by
  simp [exec_eq_runHandler, runHandler, checkOperandFetch_ok hpc]

theorem exec_of_handle_error {i : Instr} {s : State} {r : Raised} (hpc : s.pc.toNat ≤ 253) (h : handle i s = .error r) :
    exec i s = .next (faultEntry r i.opcode s) := by
  simp [exec_eq_settle hpc, h, settle]

/-! ### What an instruction can raise (R180, R184) -/

/-- The faults instruction `i` can raise at `s`, each with the check that failed. -/
inductive CanRaise (i : Instr) (s : State) : Raised → Prop
  /-- The operand fetch (R85). -/
  | operandFetch (hpc : 254 ≤ s.pc.toNat) : CanRaise i s (.outOfRange .mem 256)
  /-- A register operand above 7 (R23). -/
  | registerIndex {a : Byte} (ha : a ∈ i.registerOperands) (h : 7 < a.toNat) : CanRaise i s (.outOfRange .reg a.toNat)
  /-- A push below address 0 (R141). -/
  | pushUnderflow (hi : i.handler ∈ [Handler.push, Handler.call]) (hsp : s.sp.toNat = 0) :
      CanRaise i s (.outOfRange .mem (-1))
  /-- A push below STACK_FLOOR (R141). -/
  | pushCollision (hi : i.handler ∈ [Handler.push, Handler.call]) (hlt : pushAddr s < s.stackFloor.toNat) :
      CanRaise i s (.stackCollision (pushAddr s))
  /-- A pop above address 255 (R142). -/
  | popOverflow (hi : i.handler ∈ [Handler.pop, Handler.ret]) (hsp : s.sp.toNat = 255) :
      CanRaise i s (.outOfRange .mem 256)
  /-- A next pc above 255 (R88). -/
  | nextPc (hi : operandCount i.opcode = 2) (hpc : s.pc.toNat = 253) : CanRaise i s (.outOfRange .pc 256)

section
variable {i : Instr} {s : State} {r : Raised}

theorem regIndex_error_canRaise {a : Byte} (ha : a ∈ i.registerOperands) (h : regIndex a = .error r) :
    CanRaise i s r := by
  rcases regIndex_cases a with ⟨_, _, e⟩ | ⟨hlt, e⟩ <;> rw [e] at h <;> cases h
  exact .registerIndex ha hlt

theorem pushByte_error_canRaise {v : Byte} (hi : i.handler ∈ [Handler.push, Handler.call])
    (h : pushByte v s = .error r) : CanRaise i s r := by
  rcases pushByte_cases v s with ⟨hsp, e⟩ | ⟨_, hlt, e⟩ | ⟨_, _, e⟩ <;> rw [e] at h <;> cases h
  · exact .pushUnderflow hi hsp
  · exact .pushCollision hi hlt

theorem popByte_error_canRaise (hi : i.handler ∈ [Handler.pop, Handler.ret]) (h : popByte s = .error r) :
    CanRaise i s r := by
  rcases popByte_cases s with ⟨hsp, e⟩ | ⟨_, e⟩ <;> rw [e] at h <;> cases h
  exact .popOverflow hi hsp

/-- The mux gives the ALU its two operations alone, so only the two indices can raise (R122, R125). -/
theorem handleAlu_error_canRaise {ir a b : Byte} (hir : ir = 0xA0#8 ∨ ir = 0xA2#8) (hi : i.registerOperands = [a, b])
    (h : handleAlu ir a b s = .error r) : CanRaise i s r := by
  have halu (x y : Byte) : (alu ir x y).value ≠ .error r := by
    rcases hir with rfl | rfl <;> simp [alu_add, alu_mul, AluOutput.value]
  exact bind_error_elim h (regIndex_error_canRaise (by simp [hi])) fun _ h =>
    bind_error_elim h (regIndex_error_canRaise (by simp [hi])) fun _ h =>
      bind_error_elim h (fun e => absurd e (halu _ _)) nofun

/-- Every fault of a handler is one of the faults its instruction can raise. -/
theorem handle_error_canRaise (h : handle i s = .error r) : CanRaise i s r := by
  cases i with
  | hlt => cases h
  | ldi a b | prn a => exact bind_error_elim h (regIndex_error_canRaise (by simp [Instr.registerOperands])) nofun
  | mul a b => exact handleAlu_error_canRaise (.inr rfl) rfl h
  | add a b => exact handleAlu_error_canRaise (.inl rfl) rfl h
  | push a =>
    exact bind_error_elim h (regIndex_error_canRaise (by simp [Instr.registerOperands])) fun _ h =>
      pushByte_error_canRaise (by simp [Instr.handler]) h
  | pop a =>
    exact bind_error_elim h (regIndex_error_canRaise (by simp [Instr.registerOperands])) fun _ h =>
      bind_error_elim h (popByte_error_canRaise (by simp [Instr.handler])) nofun
  | call a =>
    exact bind_error_elim h (regIndex_error_canRaise (by simp [Instr.registerOperands])) fun _ h =>
      bind_error_elim h (pushByte_error_canRaise (by simp [Instr.handler])) nofun
  | ret => exact bind_error_elim h (popByte_error_canRaise (by simp [Instr.handler])) nofun

theorem operandCount_opcode_le (i : Instr) : operandCount i.opcode ≤ 2 :=
  (show ∀ h : Handler, operandCount h.opcode ≤ 2 by intro h; cases h <;> decide) i.handler

/-- The only fault after the handler is the next pc of a three-byte instruction at pc 253 (R88). -/
theorem afterHandler_error_canRaise {t : State} (hpc : s.pc.toNat ≤ 253) (h : afterHandler i s.pc t = .error r) :
    CanRaise i s r := by
  unfold afterHandler at h
  split at h
  · cases h
  · split at h
    · cases h
    · have hcount := operandCount_opcode_le i
      rcases Nat.lt_or_ge 255 (s.pc.toNat + operandCount i.opcode + 1) with hlt | hle
      · have hi : operandCount i.opcode = 2 := by omega
        have hs : s.pc.toNat = 253 := by omega
        rw [advance_error hlt, hi, hs] at h
        cases h
        exact .nextPc hi hs
      · rw [advance_ok hle] at h
        cases h

/-- Every fault an instruction can raise is a row of R180's table. -/
theorem CanRaise.asTabled (h : CanRaise i s r) (ir : Byte) : (faultEntry r ir s).fault.asTabled := by
  cases h with
  | operandFetch | popOverflow => exact .inr (.inl ⟨rfl, rfl, .inl rfl⟩)
  | pushUnderflow => exact .inr (.inl ⟨rfl, rfl, .inr rfl⟩)
  | nextPc => exact .inr (.inr (.inr (.inl ⟨rfl, rfl, rfl⟩)))
  | @registerIndex a _ h =>
    have hlt := a.isLt
    have hval : (BitVec.ofInt 10 (a.toNat : Int)).toNat = a.toNat := by
      rw [BitVec.ofInt_natCast, BitVec.toNat_ofNat]; omega
    refine .inr (.inr (.inl ⟨rfl, rfl, ?_⟩))
    simp only [faultEntry_fault, Raised.outOfRange, hval]
    omega
  | pushCollision =>
    have hlt := s.sp.isLt
    refine .inr (.inr (.inr (.inr ⟨rfl, rfl, ?_⟩)))
    simp only [faultEntry_fault, Raised.stackCollision, BitVec.ofInt_natCast, BitVec.toNat_ofNat, pushAddr]
    omega

end

/-! ### What a committed instruction changes -/

/-- The frame of a committed instruction: the pieces of state it leaves unchanged, and the form of what it changes. Nothing
is said of pc. -/
structure CommitFrame (i : Instr) (s t : State) : Prop where
  /-- The "writes" column of R22. -/
  getReg : ∀ r : Fin 8, BitVec.ofNat 8 r.val ∉ i.registersWritten → t.getReg r = s.getReg r
  /-- R26. -/
  sp : i.handler ∉ [Handler.push, Handler.pop, Handler.call, Handler.ret] → t.sp = s.sp
  /-- R27. -/
  status : t.status = if i = .hlt then .halted else s.status
  /-- R28. -/
  fault : t.fault = s.fault
  /-- R29. -/
  stackFloor : t.stackFloor = s.stackFloor
  /-- R33. -/
  outputLog : t.outputLog = s.outputLog ∨
    ∃ a r, i = .prn a ∧ r.val = a.toNat ∧ t.outputLog = s.outputLog ++ [s.getReg r]
  /-- R42. -/
  mem : t.mem = s.mem ∨ ∃ v, i.storeAddr s = some (pushAddr s) ∧ t.mem = Memory.write (pushAddr s) v s.mem

theorem ofNat_fin_eq_iff {a : Byte} {q r : Fin 8} (hq : q.val = a.toNat) : BitVec.ofNat 8 r.val = a ↔ r = q := by
  have hlt := r.isLt
  rw [← BitVec.toNat_inj, BitVec.toNat_ofNat, Fin.ext_iff]
  omega

theorem getReg_setReg_of_ne_operand (s : State) {a : Byte} {q r : Fin 8} (hq : q.val = a.toNat) (v : Byte)
    (h : BitVec.ofNat 8 r.val ∉ [a]) : (s.setReg q v).getReg r = s.getReg r :=
  s.getReg_setReg_ne (fun e => h (List.mem_singleton.2 ((ofNat_fin_eq_iff hq).2 e))) v

/-- The frame of LDI, MUL and ADD: one register written, in the "writes" column. -/
theorem commitFrame_setReg {i : Instr} {a : Byte} {r : Fin 8} (s : State) (hne : i ≠ .hlt) (hw : i.registersWritten = [a])
    (hr : r.val = a.toNat) (v : Byte) : CommitFrame i s (s.setReg r v) where
  getReg _ hq := getReg_setReg_of_ne_operand s hr v (hw ▸ hq)
  sp _ := rfl
  status := (if_neg hne).symm
  fault := rfl
  stackFloor := rfl
  outputLog := .inl rfl
  mem := .inl rfl

/-- The frame of PUSH and CALL: sp moved, and one byte stored at the address of a push. -/
theorem commitFrame_push {i : Instr} (s : State) (hi : i.handler ∈ [Handler.push, Handler.call])
    (ha : i.storeAddr s = some (pushAddr s)) (x v : Byte) : CommitFrame i s ((s.setSp x).writeByte (pushAddr s) v) where
  getReg _ _ := rfl
  sp h := absurd ((show [Handler.push, .call] ⊆ [.push, .pop, .call, .ret] by decide) hi) h
  status := (if_neg (by rintro rfl; simp [Instr.handler] at hi)).symm
  fault := rfl
  stackFloor := rfl
  outputLog := .inl rfl
  mem := .inr ⟨v, ha, rfl⟩

theorem CommitFrame.setPc {i : Instr} {s t : State} (h : CommitFrame i s t) (p : Byte) : CommitFrame i s (t.setPc p) :=
  ⟨h.getReg, h.sp, h.status, h.fault, h.stackFloor, h.outputLog, h.mem⟩

theorem handle_commitFrame {i : Instr} {s t : State} (h : handle i s = .ok t) : CommitFrame i s t := by
  rcases handle_ok_cases h with ⟨rfl, rfl⟩ | ⟨a, b, r, rfl, hr, rfl⟩ | ⟨a, r, rfl, hr, rfl⟩ | ⟨a, b, r, q, rfl, hr, _, rfl⟩ |
    ⟨a, b, r, q, rfl, hr, _, rfl⟩ | ⟨a, r, rfl, hr, _, _, rfl⟩ | ⟨a, r, rfl, hr, _, rfl⟩ | ⟨a, r, rfl, hr, _, _, rfl⟩ |
    ⟨rfl, _, rfl⟩
  · exact ⟨fun _ _ => rfl, fun _ => rfl, rfl, rfl, rfl, .inl rfl, .inl rfl⟩
  · exact commitFrame_setReg s (by simp) rfl hr _
  · exact ⟨fun _ _ => rfl, fun _ => rfl, rfl, rfl, rfl, .inr ⟨a, r, rfl, hr, rfl⟩, .inl rfl⟩
  · exact commitFrame_setReg s (by simp) rfl hr _
  · exact commitFrame_setReg s (by simp) rfl hr _
  · exact commitFrame_push s (by simp [Instr.handler]) rfl _ _
  · exact ⟨fun q hq => getReg_setReg_of_ne_operand (s.setSp _) hr _ hq, fun h => absurd (by simp [Instr.handler]) h, rfl, rfl,
      rfl, .inl rfl, .inl rfl⟩
  · exact (commitFrame_push s (by simp [Instr.handler]) rfl _ _).setPc _
  · exact ⟨fun _ _ => rfl, fun h => absurd (by simp [Instr.handler]) h, rfl, rfl, rfl, .inl rfl, .inl rfl⟩

/-- Every `exec` either takes a fault its instruction can raise, or commits within the instruction's frame. -/
theorem exec_faults_or_commits {i : Instr} {s t : State} (h : exec i s = .next t) :
    (∃ r, CanRaise i s r ∧ t = faultEntry r i.opcode s) ∨ CommitFrame i s t := by
  rw [exec_eq_runHandler] at h
  rcases runHandler_cases i (handle i) s with ⟨hpc, e⟩ | ⟨_, r, hh, e⟩ | ⟨hpc, u, r, _, ha, e⟩ | ⟨_, u, w, hh, ha, e⟩ <;>
    rw [e] at h <;> cases h
  · exact .inl ⟨_, .operandFetch hpc, rfl⟩
  · exact .inl ⟨r, handle_error_canRaise hh, rfl⟩
  · exact .inl ⟨r, afterHandler_error_canRaise hpc ha, rfl⟩
  · rw [afterHandler_eq_ok ha]
    exact .inr ((handle_commitFrame hh).setPc _)

/-! ### What an instruction makes of one register (R22) -/

theorem State.setReg_setReg_same (s : State) (r : Fin 8) (v w : Byte) : (s.setReg r v).setReg r w = s.setReg r w := by
  simp [State.setReg]

theorem State.setReg_comm (s : State) {q r : Fin 8} (h : r ≠ q) (v w : Byte) :
    (s.setReg r v).setReg q w = (s.setReg q w).setReg r v := by
  simp only [State.setReg]
  congr 1
  exact Vector.set_comm v w (Fin.val_ne_of_ne h)

/-- What `i` makes of a register it does not read, once that register held `v` before it: `t`, the state after `i`, where `i`
writes the register, and `t` with `v` still there where it does not. -/
def overlay (i : Instr) (r : Fin 8) (v : Byte) (t : State) : State :=
  if BitVec.ofNat 8 r.val ∈ i.registersWritten then t else t.setReg r v

theorem overlay_of_writes_nothing {i : Instr} (h : i.registersWritten = []) (r : Fin 8) (v : Byte) :
    overlay i r v = fun t => t.setReg r v := by
  funext t
  simp [overlay, h]

theorem setReg_setReg_eq_overlay {i : Instr} {a : Byte} {q : Fin 8} (hw : i.registersWritten = [a])
    (hq : q.val = a.toNat) (s : State) (r : Fin 8) (v w : Byte) :
    (s.setReg r v).setReg q w = overlay i r v (s.setReg q w) := by
  simp only [overlay, hw, List.mem_singleton, ofNat_fin_eq_iff hq]
  split
  case isTrue h => rw [h, State.setReg_setReg_same]
  case isFalse h => exact s.setReg_comm h v w

/-- A sequence whose first operation differs by `k` differs by `g` where its continuation turns `k` into `g`. -/
theorem map_bind_eq_map_bind {ε α β γ δ : Type} {x : Except ε α} {k : α → δ} {f : α → Except ε β} {f' : δ → Except ε γ}
    {g : β → γ} (h : ∀ a, x = .ok a → f' (k a) = (f a).map g) : (x.map k >>= f') = (x >>= f).map g := by
  cases x with
  | error e => rfl
  | ok a => exact h a rfl

theorem bind_eq_map_bind {ε α β γ : Type} {x : Except ε α} {f : α → Except ε β} {f' : α → Except ε γ} {g : β → γ}
    (h : ∀ a, x = .ok a → f' a = (f a).map g) : (x >>= f') = (x >>= f).map g := by
  simpa only [Except.map_id, id] using map_bind_eq_map_bind (k := id) h

theorem regIndex_eq_ok {a : Byte} {q : Fin 8} (h : regIndex a = .ok q) : q.val = a.toNat := by
  rcases regIndex_cases a with ⟨r, hr, e⟩ | ⟨_, e⟩ <;> rw [e] at h <;> cases h
  exact hr

/-- An operand that does not name register `r` reads the same whatever `r` holds. -/
theorem State.getReg_setReg_of_operand (s : State) {a : Byte} {q r : Fin 8} (h : regIndex a = .ok q)
    (hr : BitVec.ofNat 8 r.val ≠ a) (v : Byte) : (s.setReg r v).getReg q = s.getReg q :=
  s.getReg_setReg_ne (fun e => hr ((ofNat_fin_eq_iff (regIndex_eq_ok h)).2 e.symm)) v

theorem pushByte_setReg (w : Byte) (s : State) (r : Fin 8) (v : Byte) :
    pushByte w (s.setReg r v) = (pushByte w s).map fun t => t.setReg r v := by
  simp only [pushByte, apply_ite (Except.map _)]
  rfl

theorem popByte_setReg (s : State) (r : Fin 8) (v : Byte) :
    popByte (s.setReg r v) = (popByte s).map fun p => (p.1, p.2.setReg r v) := by
  simp only [popByte, apply_ite (Except.map _)]
  rfl

theorem handleAlu_setReg {i : Instr} {a b : Byte} {r : Fin 8} (hw : i.registersWritten = [a])
    (hr : BitVec.ofNat 8 r.val ∉ [a, b]) (ir : Byte) (s : State) (v : Byte) :
    handleAlu ir a b (s.setReg r v) = (handleAlu ir a b s).map (overlay i r v) := by
  obtain ⟨ha, hb⟩ : BitVec.ofNat 8 r.val ≠ a ∧ BitVec.ofNat 8 r.val ≠ b := by simpa using hr
  refine bind_eq_map_bind fun p hp => bind_eq_map_bind fun q hq => ?_
  rw [s.getReg_setReg_of_operand hp ha, s.getReg_setReg_of_operand hq hb]
  exact bind_eq_map_bind fun y _ => congrArg Except.ok (setReg_setReg_eq_overlay hw (regIndex_eq_ok hp) s r v y)

/-- A register that an instruction does not read has no influence on its handler: the fault is the same, and the state is the
same but for that register. -/
theorem handle_setReg {i : Instr} {r : Fin 8} (hr : BitVec.ofNat 8 r.val ∉ i.registersRead) (s : State) (v : Byte) :
    handle i (s.setReg r v) = (handle i s).map (overlay i r v) := by
  cases i with
  | hlt => rfl
  | ldi a b =>
    exact bind_eq_map_bind fun q hq => congrArg Except.ok (setReg_setReg_eq_overlay rfl (regIndex_eq_ok hq) s r v b)
  | prn a =>
    rw [overlay_of_writes_nothing rfl]
    refine bind_eq_map_bind fun q hq => ?_
    rw [s.getReg_setReg_of_operand hq (by simpa [Instr.registersRead] using hr)]
    rfl
  | mul a b | add a b => exact handleAlu_setReg rfl hr _ s v
  | push a =>
    rw [overlay_of_writes_nothing rfl]
    refine bind_eq_map_bind fun q hq => ?_
    rw [s.getReg_setReg_of_operand hq (by simpa [Instr.registersRead] using hr), pushByte_setReg]
  | pop a =>
    refine bind_eq_map_bind fun q hq => ?_
    rw [popByte_setReg]
    exact map_bind_eq_map_bind fun p _ =>
      congrArg Except.ok (setReg_setReg_eq_overlay rfl (regIndex_eq_ok hq) p.2 r v p.1)
  | call a =>
    rw [overlay_of_writes_nothing rfl]
    refine bind_eq_map_bind fun q hq => ?_
    simp only [s.getReg_setReg_of_operand hq (by simpa [Instr.registersRead] using hr), pushByte_setReg]
    exact map_bind_eq_map_bind fun t _ => rfl
  | ret =>
    rw [overlay_of_writes_nothing rfl]
    simp only [handle, handleRet, popByte_setReg]
    exact map_bind_eq_map_bind fun p _ => rfl

theorem afterHandler_setReg (i : Instr) (pc : Byte) (t : State) (r : Fin 8) (v : Byte) :
    afterHandler i pc (t.setReg r v) = (afterHandler i pc t).map fun u => u.setReg r v := by
  simp only [afterHandler, advance, apply_ite (Except.map _)]
  rfl

theorem afterHandler_overlay (i : Instr) (pc : Byte) (t : State) (r : Fin 8) (v : Byte) :
    afterHandler i pc (overlay i r v t) = (afterHandler i pc t).map (overlay i r v) := by
  by_cases hw : BitVec.ofNat 8 r.val ∈ i.registersWritten
  · have hid : overlay i r v = id := funext fun _ => if_pos hw
    rw [hid, Except.map_id, id, id]
  · have hset : overlay i r v = fun u => u.setReg r v := funext fun _ => if_neg hw
    rw [hset, afterHandler_setReg]

/-- A register that an instruction does not read has no influence on it: it takes the same fault, or commits to the same
state but for that register, which it overwrites where it writes it. -/
theorem exec_setReg {i : Instr} {s t : State} {r : Fin 8} (hr : BitVec.ofNat 8 r.val ∉ i.registersRead) (v : Byte)
    (h : exec i s = .next t) :
    (t.status = .faulted ∧ exec i (s.setReg r v) = .next (t.setReg r v)) ∨
      exec i (s.setReg r v) = .next (overlay i r v t) := by
  rcases Nat.lt_or_ge 253 s.pc.toNat with hpc | hpc
  · rw [exec_of_pc_ge hpc] at h
    cases h
    exact .inl ⟨rfl, exec_of_pc_ge hpc⟩
  · have hcomp : (handle i (s.setReg r v) >>= afterHandler i s.pc) =
        (handle i s >>= afterHandler i s.pc).map (overlay i r v) := by
      rw [handle_setReg hr]
      exact map_bind_eq_map_bind fun u _ => afterHandler_overlay i s.pc u r v
    rw [exec_eq_settle hpc] at h
    rw [exec_eq_settle (s := s.setReg r v) hpc, State.setReg_pc, hcomp]
    cases hx : handle i s >>= afterHandler i s.pc with
    | error e =>
      rw [hx] at h
      cases h
      exact .inl ⟨rfl, rfl⟩
    | ok u =>
      rw [hx] at h
      cases h
      exact .inr rfl

theorem overlay_setReg (i : Instr) (r : Fin 8) (v w : Byte) (t : State) :
    (overlay i r v t).setReg r w = t.setReg r w := by
  unfold overlay
  split
  · rfl
  · exact t.setReg_setReg_same r v w

/-! ### The invariant -/

theorem faultEntry_inv {s : State} {r : Raised} (hs : s.Inv) (h : (faultEntry r s.fetchOpcode s).fault.asTabled) :
    (faultEntry r s.fetchOpcode s).Inv where
  mem_wf := hs.mem_wf
  floor_le := hs.floor_le
  fault_zero hne := absurd rfl hne
  fault_tabled _ := h
  fault_at_pc _ := ⟨rfl, rfl⟩

theorem CommitFrame.mem_wf {i : Instr} {s t : State} (h : CommitFrame i s t) (hs : Memory.wf s.mem) : Memory.wf t.mem := by
  have haddr : pushAddr s < Config.memSize := by
    have hlt := s.sp.isLt
    simp only [pushAddr, Config.memSize]
    omega
  rcases h.mem with e | ⟨v, _, e⟩ <;> rw [e]
  · exact hs
  · exact Memory.write_wf haddr hs

/-- A committed instruction of a core that had not faulted leaves it unfaulted. -/
theorem CommitFrame.status_ne_faulted {i : Instr} {s t : State} (h : CommitFrame i s t) (hs : s.status ≠ .faulted) :
    t.status ≠ .faulted := by
  rw [h.status]
  split
  · decide
  · exact hs

theorem CommitFrame.inv {i : Instr} {s t : State} (h : CommitFrame i s t) (hs : s.Inv) (hne : s.status ≠ .faulted) :
    t.Inv where
  mem_wf := h.mem_wf hs.mem_wf
  floor_le := h.stackFloor ▸ hs.floor_le
  fault_zero _ := h.fault ▸ hs.fault_zero hne
  fault_tabled e := absurd e (h.status_ne_faulted hne)
  fault_at_pc e := absurd e (h.status_ne_faulted hne)

/-- A step of a running core takes a fault of R180's table, or commits the instruction it fetched within that instruction's
frame. -/
theorem step_faults_or_commits {s t : State} (hs : s.status = .running) (h : step s = .next t) :
    (∃ r, t = faultEntry r s.fetchOpcode s ∧ t.fault.asTabled) ∨
      ∃ i, decode s.fetchOpcode s.operandA s.operandB = .ok i ∧ CommitFrame i s t := by
  rcases step_cases hs with ⟨_, e⟩ | ⟨_, _, e⟩ | ⟨_, i, hdec, e⟩ <;> rw [e] at h
  · cases h
    exact .inl ⟨_, rfl, .inr (.inl ⟨rfl, rfl, .inl rfl⟩)⟩
  · cases h
    exact .inl ⟨_, rfl, .inl ⟨rfl, rfl, rfl⟩⟩
  · rcases exec_faults_or_commits h with ⟨r, hr, rfl⟩ | hc
    · exact .inl ⟨r, by rw [(decode_eq_ok hdec).1], hr.asTabled _⟩
    · exact .inr ⟨i, hdec, hc⟩

/-- Settles O43: a step is idle, takes a fault of R180's table at its own pc and opcode byte, or commits within the frame of
the instruction it decoded. -/
theorem stepKeepsInv : Obligations.StepKeepsInv := by
  intro s t hs h
  by_cases hrun : s.status = .running
  · rcases step_faults_or_commits hrun h with ⟨r, rfl, hr⟩ | ⟨i, _, hc⟩
    · exact faultEntry_inv hs hr
    · exact hc.inv hs (by simp [hrun])
  · rw [step_of_not_running hrun] at h
    cases h
    exact hs

/-- Settles O42: nothing is loaded, nothing has faulted, and STACK_FLOOR is 0. -/
theorem resetMeetsInv : Obligations.ResetMeetsInv where
  mem_wf := reset_mem_wf
  floor_le := by decide
  fault_zero _ := rfl
  fault_tabled := nofun
  fault_at_pc := nofun

/-- Settles O41: the host's Reset is total, and `hostReset` holds R210's values field by field. -/
theorem resetLeavesTheTabledState : Obligations.ResetLeavesTheTabledState :=
  ⟨fun x s => ⟨hostReset x s, rfl, rfl, rfl, rfl, rfl, rfl, rfl, rfl, rfl, rfl, rfl, rfl, fun _ => rfl⟩,
    ⟨Config.regInit, rfl⟩, fun _ => rfl⟩

/-! ### Registers, control state and output -/

/-- Settles O20: the frame of a commit keeps the registers outside the "writes" column, and a register outside the "reads"
column has no influence. -/
theorem registersReadAndWritten : Obligations.RegistersReadAndWritten := by
  refine ⟨fun i s t r h hw => ?_, fun i s t u r v hr ht hu => ?_⟩
  · rcases exec_faults_or_commits h with ⟨e, _, rfl⟩ | hc
    · rfl
    · exact hc.getReg r hw
  · rcases exec_setReg hr v ht with ⟨hf, e⟩ | e <;> rw [e] at hu <;> cases hu
    · exact ⟨t.setReg_setReg_same r v 0, fun _ _ hne => absurd hf hne⟩
    · exact ⟨overlay_setReg i r v 0 t, fun hw _ _ => by rw [overlay, if_pos hw]⟩

/-- Settles O22: a fault keeps everything but STATUS and the record, and a commit keeps its instruction's frame. -/
theorem controlFrame : Obligations.ControlFrame := by
  intro i s t h
  rcases exec_faults_or_commits h with ⟨r, _, rfl⟩ | hc
  · simp
  · refine ⟨hc.stackFloor, hc.sp, fun hi => ?_, fun _ => hc.fault, fun _ hi => by rw [hc.status, if_neg hi],
      fun _ hi => by rw [hc.status, if_pos hi]⟩
    rcases hc.outputLog with e | ⟨a, _, rfl, _⟩
    · exact e
    · exact absurd rfl hi

/-- A handler raises at its first register operand above 7 (R23). -/
theorem handle_error_of_first_bad_operand {i : Instr} {v : Byte} (s : State)
    (h : i.registerOperands.find? (fun a => 7 < a.toNat) = some v) : handle i s = .error (.outOfRange .reg v.toNat) := by
  have hv : 7 < v.toNat := by simpa using List.find?_some h
  cases i with
  | hlt | ret => cases h
  | ldi a _ | prn a | push a | pop a | call a =>
    obtain rfl : v = a := by simpa [Instr.registerOperands] using List.mem_of_find?_eq_some h
    simp [handle, handleLdi, handlePrn, handlePush, handlePop, handleCall, regIndex_error hv]
  | mul a b | add a b =>
    rcases regIndex_cases a with ⟨r, hr, e⟩ | ⟨ha, e⟩
    · have ha : ¬ 7 < a.toNat := by omega
      obtain ⟨-, rfl⟩ : 7 < b.toNat ∧ b = v := by simpa [Instr.registerOperands, ha] using h
      simp [handle, handleAlu, e, regIndex_error hv]
    · obtain rfl : a = v := by simpa [Instr.registerOperands, ha] using h
      simp [handle, handleAlu, e]

/-- A well-formed instruction has no register operand above 7, so it raises no REG fault (R23). -/
theorem CanRaise.loc_ne_reg {i : Instr} {s : State} {r : Raised} (h : CanRaise i s r) (hi : i.wellFormed = true) :
    r.loc ≠ .reg := by
  cases h with
  | registerIndex ha hlt =>
    have hle := of_decide_eq_true (List.all_eq_true.1 hi _ ha)
    omega
  | operandFetch | pushUnderflow | pushCollision | popOverflow | nextPc => nofun

/-- Settles O23: the first bad index raises in the handler, and every REG fault is for a register operand above 7. -/
theorem registerIndexChecked : Obligations.RegisterIndexChecked := by
  refine ⟨fun i s v hpc h => exec_of_handle_error hpc (handle_error_of_first_bad_operand s h), fun i s t hi hs h => ?_⟩
  rcases exec_faults_or_commits h with ⟨r, hr, rfl⟩ | hc
  · exact hr.loc_ne_reg hi
  · rwa [hc.fault]

theorem hostAct_outputLog {act : HostAction} {s t : State} (hne : ∀ x, act ≠ .reset x) (h : hostAct act s = some t) :
    t.outputLog = s.outputLog := by
  rcases hostAct_cases h with ⟨x, rfl, _⟩ | ⟨_, _, rfl⟩ | ⟨_, _, rfl⟩ | ⟨a, v, _, _, rfl⟩ | ⟨l, _, _, _, rfl⟩
  · exact absurd rfl (hne x)
  all_goals rfl

/-- Settles O48: a step that changes the log commits the instruction it fetched, and among the frames only PRN's appends. -/
theorem outputOnlyByPrn : Obligations.OutputOnlyByPrn := by
  refine ⟨fun x s t h => ?_, fun act s t => hostAct_outputLog, fun s t h hlog => ?_⟩
  · cases h
    rfl
  · have hrun : s.status = .running := by
      by_contra hne
      rw [step_of_not_running hne] at h
      cases h
      exact hlog rfl
    rcases step_faults_or_commits hrun h with ⟨r, rfl, _⟩ | ⟨i, hdec, hc⟩
    · exact absurd rfl hlog
    · obtain ⟨a, r, rfl, hr, happ⟩ := hc.outputLog.resolve_left hlog
      obtain ⟨hir, hi⟩ := decode_eq_ok hdec
      obtain rfl : a = s.operandA := by simpa [Instr.handler, Handler.assemble] using hi
      exact ⟨hrun, by simpa [hrun] using hc.status, hir, r, hr.symm, happ⟩

end Sys2Proof.Machine

/-! SUPPORT. The statements of 20_memory.md, and the layer they rest on: which bytes a committed instruction keeps, what a
committed push stores, and who uses memory in each control state. -/

namespace Sys2Proof.Machine

/-! ### The memory frame (R42) -/

/-- A committed instruction keeps every byte but the one at the address it stores to. -/
theorem CommitFrame.readByte {i : Instr} {s t : State} (h : CommitFrame i s t) {n : Nat} (hn : i.storeAddr s ≠ some n) :
    t.readByte n = s.readByte n := by
  rcases h.mem with e | ⟨v, ha, e⟩ <;> rw [State.readByte, e]
  · rfl
  · have hne : n ≠ pushAddr s := by
      rintro rfl
      exact hn ha
    exact Memory.read_write_ne hne v s.mem

/-- Settles O21: a fault keeps memory whole, and a commit keeps every byte outside its instruction's store address. -/
theorem memoryFrame : Obligations.MemoryFrame := by
  intro i s t h
  rcases exec_faults_or_commits h with ⟨r, _, rfl⟩ | hc
  · simp
  · exact ⟨fun a ha n hne => hc.readByte (by simpa [ha] using hne.symm), fun hnone n => hc.readByte (by simp [hnone]),
      fun hs ht => absurd ht (hc.status_ne_faulted hs)⟩

/-! ### What a committed push stores (R51, R141) -/

/-- The address a push stores to is one of the 256 cells, so sp holds it exactly (R40). -/
@[simp] theorem pushAddr_mod_256 (s : State) : pushAddr s % 256 = pushAddr s := by
  have hlt := s.sp.isLt
  simp only [pushAddr]
  omega

/-- An instruction that does not end FAULTED has passed the operand fetch, its handler and the advance (R90). -/
theorem exec_eq_next_of_not_faulted {i : Instr} {s t : State} (h : exec i s = .next t) (ht : t.status ≠ .faulted) :
    s.pc.toNat ≤ 253 ∧ ∃ u, handle i s = .ok u ∧ afterHandler i s.pc u = .ok t := by
  rcases exec_cases i s with ⟨r, e⟩ | ⟨hpc, u, w, hu, hw, e⟩ <;> rw [e] at h <;> cases h
  · exact absurd rfl ht
  · exact ⟨hpc, u, hu, hw⟩

/-- What PUSH's handler answers where it answers (R143). -/
theorem handle_push_eq_ok {a : Byte} {s t : State} (h : handle (.push a) s = .ok t) :
    ∃ r : Fin 8, r.val = a.toNat ∧ 1 ≤ s.sp.toNat ∧ s.stackFloor.toNat ≤ pushAddr s ∧
      t = (s.setSp (BitVec.ofNat 8 (pushAddr s))).writeByte (pushAddr s) (s.getReg r) := by
  simpa using handle_ok_cases h

/-- Settles O40: the cell at the new sp is the one the push wrote, and the advance after it moves pc alone. -/
theorem fetchSeesStackWrites : Obligations.FetchSeesStackWrites := by
  intro s t r _ h ht
  obtain ⟨_, u, hu, hadv⟩ := exec_eq_next_of_not_faulted h (by simp [ht])
  obtain ⟨q, hq, _, _, rfl⟩ := handle_push_eq_ok hu
  obtain rfl : r = q := (ofNat_fin_eq_iff hq).1 rfl
  rw [afterHandler_eq_ok hadv]
  simp [State.fetchOpcode]

/-! ### Who uses memory when (R53) -/

theorem memoryContract_core_iff (c : Status) : memoryContract c .core = true ↔ c = .running := by
  cases c <;> decide

theorem memoryContract_hostWrite_iff (c : Status) : memoryContract c .hostWrite = true ↔ c = .reset := by
  cases c <;> decide

theorem memoryContract_hostRead_iff (s : State) : memoryContract s.status .hostRead = true ↔ s.ended = true := by
  rw [State.ended]
  cases s.status <;> decide

/-- The load port accepts a memory write in RESET alone (R214). -/
theorem hostAct_writeByte_accepted_iff (s : State) (a v : Byte) :
    (∃ t, hostAct (.writeByte a v) s = some t) ↔ s.status = .reset := by
  simp [hostAct]

/-- Once the run has ended, the host may read every piece of state (D23, R192). -/
theorem hostRead_of_ended {s : State} (h : s.ended = true) (item : HostItem) :
    hostRead item s = some (s.hostValue item) := by
  refine hostRead_eq_some_iff.2 ⟨?_, rfl⟩
  rcases of_decide_eq_true h with e | e <;> rw [e] <;> rfl

/-- Settles O52: each use of memory is tied to the control states R53 names for it, and a core that is not RUNNING does not
step. -/
theorem memoryContractKept : Obligations.MemoryContractKept := by
  refine ⟨fun s a v => ?_, fun s => ⟨memoryContract_hostRead_iff s, fun h => ?_⟩, fun s m h => ?_, memoryContract_core_iff⟩
  · rw [hostAct_writeByte_accepted_iff, memoryContract_hostWrite_iff]
  · exact hostRead_of_ended ((memoryContract_hostRead_iff s).1 h) .memory
  · refine step_of_not_running fun hrun => ?_
    rw [(memoryContract_core_iff s.status).2 hrun] at h
    cases h

end Sys2Proof.Machine

/-! SUPPORT. The statements of 30_encoding.md about the decoder, and the layer they rest on: which bytes decode, to what,
and what follows an encoding in a stream. -/

namespace Sys2Proof

/-! ### Which bytes dispatch (R65, R67) -/

@[simp] theorem dispatch_instr_opcode (i : Instr) : dispatch i.opcode = some i.handler := dispatch_opcode i.handler

theorem dispatch_eq_none_iff {ir : Byte} : dispatch ir = none ↔ ∀ h : Handler, ir ≠ h.opcode := by
  refine ⟨fun hd h e => ?_, fun hne => Option.eq_none_iff_forall_ne_some.2 fun h hd => hne h (eq_opcode_of_dispatch hd)⟩
  rw [e, dispatch_opcode] at hd
  cases hd

/-- A claim about every handler is one claim for each row of R65's table. -/
theorem forall_handler_iff {P : Handler → Prop} :
    (∀ h, P h) ↔ P .hlt ∧ P .ldi ∧ P .prn ∧ P .mul ∧ P .add ∧ P .push ∧ P .pop ∧ P .call ∧ P .ret := by
  refine ⟨fun h => ⟨h _, h _, h _, h _, h _, h _, h _, h _, h _⟩, ?_⟩
  rintro ⟨_, _, _, _, _, _, _, _, _⟩ h
  cases h <;> assumption

/-- The bytes without a dispatch entry are the gaps between the nine opcodes (R67). -/
theorem dispatch_eq_none_iff_mem_gap {ir : Byte} :
    dispatch ir = none ↔
      ∃ range ∈ [(0x00, 0x00), (0x02, 0x10), (0x12, 0x44), (0x48, 0x4F), (0x51, 0x81), (0x83, 0x9F), (0xA1, 0xA1), (0xA3, 0xFF)],
        range.1 ≤ ir.toNat ∧ ir.toNat ≤ range.2 := by
  have hlt := ir.isLt
  rw [dispatch_eq_none_iff, forall_handler_iff]
  simp only [Handler.opcode, ne_eq, ← BitVec.toNat_inj, BitVec.toNat_ofNat, List.mem_cons, List.not_mem_nil, or_false,
    exists_eq_or_imp, exists_eq_left]
  omega

/-! ### The decoder and the encoder -/

@[simp] theorem decode_opcode (i : Instr) (a b : Byte) : decode i.opcode a b = .ok (i.handler.assemble a b) := by
  simp [decode]

theorem decode_eq_error_iff {ir a b : Byte} : decode ir a b = .error (.unknownOpcode ir) ↔ dispatch ir = none := by
  cases hd : dispatch ir <;> simp [decode, hd]

/-- An instruction keeps as many of the fetched operand bytes as its opcode counts (R60, R64, R72). -/
theorem operandBytes_assemble (h : Handler) (a b : Byte) :
    (h.assemble a b).operandBytes = [a, b].take (operandCount h.opcode) := by
  cases h <;> rfl

/-- Whatever follows its operand bytes, an instruction is what its handler makes of the first two bytes there (R64, R72). -/
theorem assemble_operandBytes_append (i : Instr) (rest : List Byte) :
    i.handler.assemble ((i.operandBytes ++ rest).getD 0 0) ((i.operandBytes ++ rest).getD 1 0) = i := by
  cases i <;> rfl

theorem length_operandBytes (i : Instr) : i.operandBytes.length = operandCount i.opcode :=
  (Nat.succ.inj (length_eq_operandBytes i)).symm

theorem length_encode (i : Instr) : (encode i).length = i.length := by
  rw [length_eq_operandBytes, encode, List.length_cons]

/-- Three bytes decode to an instruction exactly if they begin with its encoding (R61, R63). -/
theorem decode_eq_ok_iff {ir a b : Byte} {i : Instr} :
    decode ir a b = .ok i ↔ encode i = [ir, a, b].take i.length := by
  constructor
  · intro h
    obtain ⟨rfl, hi⟩ := decode_eq_ok h
    have hops : i.operandBytes = [a, b].take (operandCount i.opcode) := by
      conv_lhs => rw [hi]
      exact operandBytes_assemble i.handler a b
    rw [encode, hops, Instr.length, List.take_succ_cons]
  · intro h
    obtain ⟨rfl, hops⟩ := List.cons.inj (h : i.opcode :: i.operandBytes = ir :: [a, b].take (operandCount i.opcode))
    have hi := assemble_operandBytes_append i ([a, b].drop (operandCount i.opcode))
    rw [hops, List.take_append_drop] at hi
    rw [decode_opcode]
    exact congrArg Except.ok hi

theorem decodeBytes_of_two_le {ir : Byte} {bytes : List Byte} (h : 2 ≤ bytes.length) :
    decodeBytes (ir :: bytes) = decode ir (bytes.getD 0 0) (bytes.getD 1 0) := by
  match bytes, h with
  | _ :: _ :: _, _ => rfl

theorem decodeBytes_encode_append (i : Instr) (x y : Byte) : decodeBytes (encode i ++ [x, y]) = .ok i := by
  rw [encode, List.cons_append, decodeBytes_of_two_le (by simp), decode_opcode, assemble_operandBytes_append]

/-- Settles O4: three bytes decode to an instruction exactly if its encoding stands in front. -/
theorem decodeEncodeRoundTrip : Obligations.DecodeEncodeRoundTrip :=
  ⟨decodeBytes_encode_append, fun _ _ _ _ h => decode_eq_ok_iff.1 h⟩

/-! ### Streams of instructions (R60, R71) -/

theorem decodeNext_encode_append (i : Instr) (rest : List Byte) : decodeNext (encode i ++ rest) = .ok (i, rest) := by
  have hlen : ¬(i.operandBytes ++ rest).length < operandCount i.opcode := by simp [← length_operandBytes]
  simp only [encode, List.cons_append, decodeNext, dispatch_instr_opcode]
  rw [if_neg hlen, assemble_operandBytes_append, ← length_operandBytes, List.drop_left]

theorem disassemble_encode_append (i : Instr) (fuel : Nat) {rest : List Byte} {is : List Instr}
    (h : disassemble fuel rest = .ok is) : disassemble (fuel + 1) (encode i ++ rest) = .ok (i :: is) := by
  have hnext := decodeNext_encode_append i rest
  rw [encode, List.cons_append] at hnext ⊢
  simp only [disassemble, hnext, h]

theorem disassemble_flatMap_encode (is : List Instr) (fuel : Nat) (hfuel : is.length ≤ fuel) :
    disassemble fuel (is.flatMap encode) = .ok is := by
  induction is generalizing fuel with
  | nil => cases fuel <;> rfl
  | cons i is ih =>
    match fuel, hfuel with
    | fuel + 1, hfuel => exact disassemble_encode_append i fuel (ih fuel (Nat.le_of_succ_le_succ hfuel))

/-- Settles O5: disassembly, with fuel enough for both sequences, gives each of them back from the same bytes. -/
theorem instructionStreamsAreUnambiguous : Obligations.InstructionStreamsAreUnambiguous := by
  refine ⟨disassemble_flatMap_encode, fun is js h => ?_⟩
  have his := disassemble_flatMap_encode is (max is.length js.length) (le_max_left _ _)
  rw [h, disassemble_flatMap_encode js _ (le_max_right _ _)] at his
  exact (Except.ok.inj his).symm

/-! ### The opcode table -/

/-- Settles O1: the rows by evaluation, and a byte that decodes is the opcode of its handler, one of the nine. -/
theorem opcodeTableRows : Obligations.OpcodeTableRows := by
  refine ⟨by decide, fun a b => ⟨rfl, rfl, rfl, rfl, rfl, rfl, rfl, rfl, rfl⟩, fun ir a b i h => ?_⟩
  obtain ⟨rfl, _⟩ := decode_eq_ok h
  rw [Instr.opcode]
  cases i.handler <;> decide

/-- Settles O3: the top two bits of a byte are its quotient by 64. -/
theorem lengthFromTopBits : Obligations.LengthFromTopBits := by
  refine ⟨fun i => ⟨?_, length_encode i⟩, fun a b => by simp [length_eq_operandBytes, Instr.operandBytes]⟩
  rw [Instr.length, operandCount, BitVec.toNat_ushiftRight, Nat.shiftRight_eq_div_pow]

end Sys2Proof

namespace Sys2Proof.Machine

/-- The three bytes a step fetches decode to the instruction whose encoding stands at pc (R61, R82). -/
theorem decode_fetched_of_encoded {s : State} {i : Instr}
    (h : ∀ k (hk : k < (encode i).length), s.readByte (s.pc.toNat + k) = (encode i)[k]) :
    decode s.fetchOpcode s.operandA s.operandB = .ok i := by
  have hlen : i.length ≤ 3 := Nat.succ_le_succ (operandCount_opcode_le i)
  refine decode_eq_ok_iff.2 (List.ext_getElem ?_ fun k hk _ => ?_)
  · rw [length_encode, List.length_take]
    exact (Nat.min_eq_left hlen).symm
  · rw [← h k hk, List.getElem_take]
    rw [length_encode] at hk
    match k, (by omega : k < 3) with
    | 0, _ => rfl
    | 1, _ => rfl
    | 2, _ => rfl

/-- A running core at pc 253 or below runs the instruction its fetched bytes decode to (R82, R87). -/
theorem step_eq_exec {s : State} {i : Instr} (hs : s.status = .running) (hpc : s.pc.toNat ≤ 253)
    (hdec : decode s.fetchOpcode s.operandA s.operandB = .ok i) : step s = exec i s := by
  rcases step_cases hs with ⟨hge, _⟩ | ⟨_, hnone, _⟩ | ⟨_, j, hj, e⟩
  · omega
  · simp [decode, hnone] at hdec
  · rw [hdec] at hj
    cases hj
    exact e

/-- A running core at pc 253 or below faults on a byte without a dispatch entry (R86). -/
theorem step_of_dispatch_none {s : State} (hs : s.status = .running) (hpc : s.pc.toNat ≤ 253)
    (hnone : dispatch s.fetchOpcode = none) : step s = .next (faultEntry .unknownOpcode s.fetchOpcode s) := by
  rcases step_cases hs with ⟨hge, _⟩ | ⟨_, _, e⟩ | ⟨_, i, hi, _⟩
  · omega
  · exact e
  · simp [decode, hnone] at hi

/-- Settles O6: the fetched bytes decode to the encoded instruction. -/
theorem encodedInstructionRuns : Obligations.EncodedInstructionRuns :=
  fun _ _ hs hpc h => step_eq_exec hs hpc (decode_fetched_of_encoded h)

/-- Settles O2: the decoder rejects what dispatch has no entry for, the gaps between the nine opcodes. -/
theorem illegalBytesFault : Obligations.IllegalBytesFault :=
  ⟨fun _ _ _ => decode_eq_error_iff.trans dispatch_eq_none_iff_mem_gap, by decide +kernel, fun _ => step_of_dispatch_none⟩

end Sys2Proof.Machine

/-! SUPPORT. The statements of 30_encoding.md about the host's text forms, and the layer they rest on: splitting a text at
its separators, and reading back the numerals the host writes. -/

namespace Sys2Proof.Machine.HostText

/-! ### Splitting a text: lines and words are the library's `List.splitOnP` -/

theorem lines_eq_splitOnP (text : List Char) : lines text = text.splitOnP (· = '\n') := by
  induction text with
  | nil => rfl
  | cons c cs ih =>
    rw [lines, ih, List.splitOnP_cons_eq_if_modifyHead]
    cases hs : cs.splitOnP (· = '\n') with
    | nil => exact absurd hs (List.splitOnP_ne_nil _ _)
    | cons l ls => simp

/-- What ends a word of an assembly statement: a blank or a comma (R69). -/
def isSeparator (c : Char) : Bool := isBlank c ∨ c = ','

theorem statementWords_eq_splitOnP (text : List Char) : statementWords text = text.splitOnP isSeparator := by
  induction text with
  | nil => rfl
  | cons c cs ih =>
    rw [statementWords, ih, List.splitOnP_cons_eq_if_modifyHead]
    cases hs : cs.splitOnP isSeparator with
    | nil => exact absurd hs (List.splitOnP_ne_nil _ _)
    | cons w ws => simp [isSeparator]

/-! ### Decimal numerals -/

theorem digitValue_of_isDigit {base : Nat} {c : Char} (hc : c.isDigit = true) (hbase : c.toNat - '0'.toNat < base) :
    digitValue base c = some (c.toNat - '0'.toNat) := by
  have hrange : '0' ≤ c ∧ c ≤ '9' := Char.isDigit_iff_toNat.1 hc
  simp only [digitValue, if_pos hrange, if_pos hbase]

theorem numeralFrom_ten_of_isDigit {ds : List Char} (hds : ∀ c ∈ ds, c.isDigit = true) (acc : Nat) :
    numeralFrom 10 acc ds = some (Nat.ofDigitChars 10 ds acc) := by
  induction ds generalizing acc with
  | nil => rfl
  | cons c ds ih =>
    obtain ⟨hc, hds⟩ := List.forall_mem_cons.1 hds
    have hle : c.toNat ≤ '9'.toNat := (Char.isDigit_iff_toNat.1 hc).2
    have hlt : c.toNat - '0'.toNat < 10 := Nat.lt_succ_of_le (Nat.sub_le_sub_right hle '0'.toNat)
    rw [numeralFrom, digitValue_of_isDigit hc hlt, Option.bind_some, ih hds, Nat.ofDigitChars_cons, Nat.mul_comm]

theorem isDigit_of_mem_toDigits {n : Nat} {c : Char} (hc : c ∈ Nat.toDigits 10 n) : c.isDigit = true :=
  Nat.isDigit_of_mem_toDigits (by decide) (by decide) hc

theorem numeral_toDigits (n : Nat) : numeral 10 (Nat.toDigits 10 n) = some n := by
  rw [numeral, if_neg Nat.toDigits_ne_nil, numeralFrom_ten_of_isDigit fun _ => isDigit_of_mem_toDigits,
    Nat.ofDigitChars_ten_toDigits]

@[simp] theorem toByte_toNat (v : Byte) : toByte v.toNat = some v := by
  have hlt := v.isLt
  rw [toByte, if_pos (by omega), BitVec.ofNat_toNat, BitVec.setWidth_eq]

/-! ### Binary literals (R8, R70) -/

/-- The low `w` bits of a byte as binary digits, the most significant first; a literal is all eight of them. -/
def bitDigits (v : Byte) (w : Nat) : List Char :=
  (List.range w).reverse.map fun k => if v.getLsbD k then '1' else '0'

theorem binaryLiteral_eq_bitDigits (v : Byte) : binaryLiteral v = bitDigits v 8 := rfl

theorem bitDigits_succ (v : Byte) (w : Nat) :
    bitDigits v (w + 1) = (if v.getLsbD w then '1' else '0') :: bitDigits v w := by
  simp [bitDigits, List.range_succ]

theorem digitValue_bit (b : Bool) : digitValue 2 (if b then '1' else '0') = some b.toNat := by
  cases b <;> rfl

/-- The low `w` bits, read after a value, shift it left by `w` and take the freed places. -/
theorem numeralFrom_bitDigits (v : Byte) (w acc : Nat) :
    numeralFrom 2 acc (bitDigits v w) = some (acc * 2 ^ w + v.toNat % 2 ^ w) := by
  induction w generalizing acc with
  | zero => simp [bitDigits, numeralFrom, Nat.mod_one]
  | succ w ih =>
    have hbit : (v.getLsbD w).toNat = v.toNat / 2 ^ w % 2 := Nat.toNat_testBit _ _
    rw [bitDigits_succ, numeralFrom, digitValue_bit, Option.bind_some, ih, hbit, Nat.mod_pow_succ]
    congr 1
    ring

theorem binaryLiteral_ne_nil (v : Byte) : binaryLiteral v ≠ [] := by simp [binaryLiteral]

theorem length_binaryLiteral (v : Byte) : (binaryLiteral v).length = 8 := by simp [binaryLiteral]

theorem numeral_binaryLiteral (v : Byte) : numeral 2 (binaryLiteral v) = some v.toNat := by
  rw [numeral, if_neg (binaryLiteral_ne_nil v), binaryLiteral_eq_bitDigits, numeralFrom_bitDigits, Nat.zero_mul,
    Nat.zero_add, Nat.mod_eq_of_lt v.isLt]

theorem mem_binaryLiteral {v : Byte} {c : Char} (h : c ∈ binaryLiteral v) : c = '1' ∨ c = '0' := by
  obtain ⟨k, _, rfl⟩ := List.mem_map.1 h
  exact ite_eq_or_eq ..

/-! ### Program files (R70) -/

/-- A line without blanks and without a comment is kept whole. -/
theorem stripLine_eq_self {l : List Char} (h : ∀ c ∈ l, isBlank c = false ∧ c ≠ '#') : stripLine l = l := by
  have hcomment : l.takeWhile (· ≠ '#') = l := List.takeWhile_eq_self_iff.2 fun c hc => decide_eq_true (h c hc).2
  have hblank {m : List Char} (hm : ∀ c ∈ m, c ∈ l) : m.dropWhile isBlank = m :=
    List.dropWhile_eq_self_iff.2 fun hpos => by simp [(h _ (hm _ (List.getElem_mem hpos))).1]
  rw [stripLine, hcomment, hblank fun _ => id, hblank fun _ => List.mem_reverse.1, List.reverse_reverse]

theorem stripLine_binaryLiteral (v : Byte) : stripLine (binaryLiteral v) = binaryLiteral v :=
  stripLine_eq_self fun c hc => by rcases mem_binaryLiteral hc with rfl | rfl <;> decide

theorem imageOfLines_binaryLiteral_cons (v : Byte) (ls : List (List Char)) :
    imageOfLines (binaryLiteral v :: ls) = (imageOfLines ls).map (v :: ·) := by
  simp [imageOfLines, stripLine_binaryLiteral, binaryLiteral_ne_nil, length_binaryLiteral, numeral_binaryLiteral]

theorem lines_formatProgramFile_cons (v : Byte) (image : List Byte) :
    lines (formatProgramFile (v :: image)) = binaryLiteral v :: lines (formatProgramFile image) := by
  have hline : ∀ c ∈ binaryLiteral v, decide (c = '\n') = false := fun c hc => by
    rcases mem_binaryLiteral hc with rfl | rfl <;> decide
  rw [formatProgramFile, List.flatMap_cons, List.append_assoc, lines_eq_splitOnP, lines_eq_splitOnP]
  exact List.splitOnP_append_cons_of_forall_mem hline '\n' rfl _

/-- Settles O50, by induction on the image: each byte writes one line, and that line reads back as the byte. -/
theorem programFileRoundTrip : Obligations.ProgramFileRoundTrip := by
  intro image
  rw [parseProgramFile]
  induction image with
  | nil => rfl
  | cons v image ih => rw [lines_formatProgramFile_cons, imageOfLines_binaryLiteral_cons, ih, Option.map_some]

/-! ### Operands of an assembly statement (R10, R69) -/

/-- A text of decimal digits begins neither with `0b` nor with `0x`. -/
theorem readImmediate_of_isDigit {ds : List Char} (h : ∀ c ∈ ds, c.isDigit = true) :
    readImmediate ds = (numeral 10 ds).bind toByte := by
  unfold readImmediate
  split
  · exact absurd (h 'b' (by simp)) (by decide)
  · exact absurd (h 'x' (by simp)) (by decide)
  · rfl

theorem readImmediate_printImmediate (b : Byte) : readImmediate (printImmediate b) = some b := by
  rw [printImmediate, readImmediate_of_isDigit fun _ => isDigit_of_mem_toDigits, numeral_toDigits, Option.bind_some,
    toByte_toNat]

theorem digitValue_digitChar {n : Nat} (hn : n ≤ 7) : digitValue 8 n.digitChar = some n := by
  have hdigits : ∀ d : Fin 8, digitValue 8 (Nat.digitChar d) = some d.val := by decide
  exact hdigits ⟨n, Nat.lt_succ_of_le hn⟩

theorem readRegister_printRegister {a : Byte} (ha : a.toNat ≤ 7) : readRegister (printRegister a) = some a := by
  have hprint : printRegister a = ['R', a.toNat.digitChar] := by
    rw [printRegister, Nat.toDigits_of_lt_base (by omega)]
  simp [hprint, readRegister, digitValue_digitChar ha]

theorem readWords_of_wellFormed {i : Instr} (h : i.wellFormed = true) :
    readWords (mnemonic i.handler :: printOperands i) = some i := by
  have hreg : ∀ a ∈ i.registerOperands, readRegister (printRegister a) = some a := fun a ha =>
    readRegister_printRegister (of_decide_eq_true (List.all_eq_true.1 h a ha))
  cases i with
  | hlt | ret => rfl
  | prn a | push a | pop a | call a | ldi a b | mul a b | add a b =>
    simp only [Instr.registerOperands, List.forall_mem_cons] at hreg
    simp [readWords, mnemonic, Instr.handler, printOperands, hreg, readImmediate_printImmediate]

/-! ### Words of an assembly statement (R69) -/

/-- A word of a statement: at least one character, none of them a separator. -/
def IsWord (w : List Char) : Prop := w ≠ [] ∧ ∀ c ∈ w, isSeparator c = false

theorem isWord_mnemonic (h : Handler) : IsWord (mnemonic h) := by
  cases h <;> simp [IsWord, mnemonic, isSeparator, isBlank]

theorem isSeparator_eq_false_of_isDigit {c : Char} (hc : c.isDigit = true) : isSeparator c = false := by
  refine Bool.eq_false_iff.2 fun hs => ?_
  have hcases : ((c = ' ' ∨ c = '\t') ∨ c = '\r') ∨ c = ',' := by simpa [isSeparator, isBlank, or_assoc] using hs
  rcases hcases with ((rfl | rfl) | rfl) | rfl <;> exact absurd hc (by decide)

theorem isWord_printImmediate (b : Byte) : IsWord (printImmediate b) :=
  ⟨Nat.toDigits_ne_nil, fun _ hc => isSeparator_eq_false_of_isDigit (isDigit_of_mem_toDigits hc)⟩

theorem isWord_printRegister (a : Byte) : IsWord (printRegister a) :=
  ⟨List.cons_ne_nil _ _, List.forall_mem_cons.2 ⟨rfl, (isWord_printImmediate a).2⟩⟩

theorem isWord_of_mem_printOperands (i : Instr) : ∀ w ∈ printOperands i, IsWord w := by
  cases i <;> simp [printOperands, isWord_printRegister, isWord_printImmediate]

theorem words_append_separator {w : List Char} (hw : IsWord w) {sep : Char} (hsep : isSeparator sep = true)
    (rest : List Char) :
    (statementWords (w ++ sep :: rest)).filter (· ≠ []) = w :: (statementWords rest).filter (· ≠ []) := by
  rw [statementWords_eq_splitOnP, statementWords_eq_splitOnP,
    List.splitOnP_append_cons_of_forall_mem hw.2 sep hsep]
  simp [hw.1]

theorem words_separator_cons {sep : Char} (hsep : isSeparator sep = true) (rest : List Char) :
    (statementWords (sep :: rest)).filter (· ≠ []) = (statementWords rest).filter (· ≠ []) := by
  simp [statementWords_eq_splitOnP, List.splitOnP_cons_eq_if_modifyHead, hsep]

theorem words_of_isWord {w : List Char} (hw : IsWord w) : (statementWords w).filter (· ≠ []) = [w] := by
  simp [statementWords_eq_splitOnP, List.splitOnP_eq_singleton hw.2, hw.1]

theorem length_printOperands_le (i : Instr) : (printOperands i).length ≤ 2 := by
  cases i <;> simp [printOperands]

/-- The words of the canonical form are the mnemonic and the operands. -/
theorem words_printStatement (i : Instr) :
    (statementWords (printStatement i)).filter (· ≠ []) = mnemonic i.handler :: printOperands i := by
  have hops := isWord_of_mem_printOperands i
  have hlen := length_printOperands_le i
  have hm := isWord_mnemonic i.handler
  rw [printStatement]
  split <;> rename_i hprint <;> rw [hprint] at hops hlen ⊢
  · exact words_of_isWord hm
  · rw [words_append_separator hm rfl, words_of_isWord (hops _ (by simp))]
  next x y rest =>
    obtain rfl : rest = [] := List.eq_nil_of_length_eq_zero (by simpa using hlen)
    simp only [List.append_assoc, List.cons_append, List.nil_append]
    rw [words_append_separator hm rfl, words_append_separator (hops x (by simp)) rfl, words_separator_cons rfl,
      words_of_isWord (hops y (by simp))]

/-- Settles O51: the canonical form's words are read back one by one. -/
theorem assemblyRoundTrip : Obligations.AssemblyRoundTrip := by
  intro i h
  have hparse : parseStatement (printStatement i) = some i := by
    rw [parseStatement, words_printStatement, readWords_of_wellFormed h]
  exact ⟨hparse, by rw [assembleStatement, hparse, Option.map_some]⟩

end Sys2Proof.Machine.HostText

/-! SUPPORT. The statements of 40_sequencer.md, and the layer they rest on: the advance of a committed instruction, the first
check of R184's list that fails, and runs of several steps. -/

namespace Sys2Proof.Machine

/-! ### One step (R81, R82, R85) -/

/-- Settles O24: where the fetched bytes decode, the step is the handler invocation. -/
theorem stepRunsDecoded : Obligations.StepRunsDecoded :=
  fun _ _ => step_eq_exec

/-- Settles O25: a core that is not running steps to itself. -/
theorem stepIdleUnlessRunning : Obligations.StepIdleUnlessRunning :=
  fun _ => step_of_not_running

/-- A running core at pc 254 or 255 faults before dispatch sees the opcode (R85). -/
theorem step_of_pc_ge {s : State} (hs : s.status = .running) (hpc : 254 ≤ s.pc.toNat) :
    step s = .next (faultEntry (.outOfRange .mem 256) s.fetchOpcode s) := by
  rcases step_cases hs with ⟨_, e⟩ | ⟨hle, _⟩ | ⟨hle, _⟩
  · exact e
  all_goals omega

theorem fetchOperands_ok {s : State} (hpc : s.pc.toNat ≤ 253) : fetchOperands s = .ok (s.operandA, s.operandB) := by
  rw [fetchOperands, checkOperandFetch_ok hpc]
  rfl

/-- Settles O26: both sides of the bounds checks of the operand fetch. -/
theorem operandFetchFault : Obligations.OperandFetchFault :=
  ⟨fun _ => step_of_pc_ge, fun _ => fetchOperands_ok⟩

/-- Settles O30: an idle step, a fault and a committed instruction each answer a next state. -/
theorem stepAlwaysAnswers : Obligations.StepAlwaysAnswers := by
  intro s
  by_cases hs : s.status = .running
  · rcases step_cases hs with ⟨_, e⟩ | ⟨_, _, e⟩ | ⟨_, i, _, e⟩
    · exact ⟨_, e⟩
    · exact ⟨_, e⟩
    · rcases exec_cases i s with ⟨r, he⟩ | ⟨_, _, u, _, _, he⟩
      · exact ⟨_, e.trans he⟩
      · exact ⟨u, e.trans he⟩
  · exact ⟨s, step_of_not_running hs⟩

/-! ### HLT and the steps after it (R91) -/

/-- HLT skips the advance: it commits its handler's state as it stands (R91, R100). -/
theorem exec_hlt {s : State} (hpc : s.pc.toNat ≤ 253) : exec .hlt s = .next (s.setStatus .halted) := by
  rw [exec_eq_settle hpc]
  rfl

theorem run_succ_of_step {M : Host.Core} {s u : M.State} (h : M.step s = .next u) (k : Nat) :
    M.run (k + 1) s = M.run k u := by
  rw [Host.Core.run, h]

/-- A core that is not running stays as it is over any number of steps. -/
theorem runsTo_self_of_not_running {s : State} (hs : s.status ≠ .running) (k : Nat) : runsTo k s s := by
  induction k with
  | zero => rfl
  | succ k ih => exact (run_succ_of_step (M := Sys2Proof.core) (step_of_not_running hs) k).trans ih

/-- Settles O28: the first step commits HLT, and no later one leaves HALTED. -/
theorem hltStopsForGood : Obligations.HltStopsForGood := by
  intro s k hs hpc hir
  have hdec : decode s.fetchOpcode s.operandA s.operandB = .ok .hlt := by
    rw [State.fetchOpcode, hir]
    rfl
  have hstep : step s = .next (s.setStatus .halted) := (step_eq_exec hs hpc hdec).trans (exec_hlt hpc)
  exact (run_succ_of_step (M := Sys2Proof.core) hstep k).trans (runsTo_self_of_not_running (by simp) k)

/-! ### The advance of a committed instruction (R88, R93) -/

theorem operandCount_eq_two_iff (i : Instr) :
    operandCount i.opcode = 2 ↔ i.handler ∈ [Handler.ldi, Handler.mul, Handler.add] :=
  (show ∀ h : Handler, operandCount h.opcode = 2 ↔ h ∈ [Handler.ldi, Handler.mul, Handler.add] by
    intro h; cases h <;> decide) i.handler

theorem setsPc_iff (h : Handler) : h.setsPc = true ↔ h = .call ∨ h = .ret := by
  cases h <;> decide

/-- Every instruction but HLT, CALL and RET ends in the generic advance (R88). -/
theorem afterHandler_eq_advance {i : Instr} (hi : i.handler ∉ [Handler.hlt, Handler.call, Handler.ret]) (pc : Byte)
    (t : State) : afterHandler i pc t = advance pc i.opcode t := by
  simp only [List.mem_cons, List.not_mem_nil, or_false, not_or] at hi
  simp [afterHandler, setsPc_iff, hi]

/-- Where an instruction with the generic advance commits, the next pc is in range, and it is the exact sum (R93). -/
theorem pc_of_committed {i : Instr} {s t : State} (hi : i.handler ∉ [Handler.hlt, Handler.call, Handler.ret])
    (h : exec i s = .next t) (ht : t.status ≠ .faulted) :
    s.pc.toNat + operandCount i.opcode + 1 ≤ 255 ∧ t.pc.toNat = s.pc.toNat + operandCount i.opcode + 1 := by
  obtain ⟨_, u, _, hadv⟩ := exec_eq_next_of_not_faulted h ht
  rw [afterHandler_eq_advance hi] at hadv
  obtain ⟨hle, rfl⟩ := advance_eq_ok hadv
  exact ⟨hle, Nat.mod_eq_of_lt (Nat.lt_succ_of_le hle)⟩

/-- Only the next-pc check raises with location PC (R180). -/
theorem CanRaise.of_loc_pc {i : Instr} {s : State} {r : Raised} (h : CanRaise i s r) (hloc : r.loc = .pc) :
    operandCount i.opcode = 2 ∧ s.pc.toNat = 253 ∧ r = .outOfRange .pc 256 := by
  cases h with
  | nextPc hi hpc => exact ⟨hi, hpc, rfl⟩
  | operandFetch | registerIndex | pushUnderflow | pushCollision | popOverflow => cases hloc

/-- A well-formed instruction without a stack access can raise nothing but the next-pc fault once its operands are fetched. -/
theorem CanRaise.loc_eq_pc {i : Instr} {s : State} {r : Raised} (h : CanRaise i s r) (hpc : s.pc.toNat ≤ 253)
    (hi : i.handler ∈ [Handler.ldi, Handler.mul, Handler.add]) (hwf : i.wellFormed = true) : r.loc = .pc := by
  have hloc := h.loc_ne_reg hwf
  cases h with
  | nextPc => rfl
  | registerIndex => exact absurd rfl hloc
  | operandFetch hge => omega
  | pushUnderflow hs | pushCollision hs =>
    exact absurd hs ((show ∀ h ∈ [Handler.ldi, Handler.mul, Handler.add], h ∉ [Handler.push, Handler.call] by decide) _ hi)
  | popOverflow hs =>
    exact absurd hs ((show ∀ h ∈ [Handler.ldi, Handler.mul, Handler.add], h ∉ [Handler.pop, Handler.ret] by decide) _ hi)

/-- The register check comes before the next-pc check (R184): an ill-formed instruction faults in it. -/
theorem exec_of_not_wellFormed {i : Instr} {s : State} (hpc : s.pc.toNat ≤ 253) (hwf : ¬ i.wellFormed = true) :
    ∃ v, exec i s = .next (faultEntry (.outOfRange .reg v) i.opcode s) := by
  cases hbad : i.registerOperands.find? (fun a => 7 < a.toNat) with
  | some v => exact ⟨_, exec_of_handle_error hpc (handle_error_of_first_bad_operand s hbad)⟩
  | none => exact absurd (by simpa [Instr.wellFormed] using hbad) hwf

/-- Settles O27: a commit ends in the advance, and PC is the location of the next-pc fault alone. -/
theorem genericAdvance : Obligations.GenericAdvance := by
  intro s t i hs hpc hdec hi h
  rw [step_eq_exec hs hpc hdec] at h
  rw [(decode_eq_ok hdec).1]
  have hfault (hf : t.status = .faulted) : ∃ r, CanRaise i s r ∧ t = faultEntry r i.opcode s := by
    refine (exec_faults_or_commits h).resolve_right fun hc => ?_
    exact hc.status_ne_faulted (by simp [hs]) hf
  refine ⟨fun hrun => ?_, ⟨fun ⟨hf, hloc⟩ => ?_, fun ⟨h253, hthree, hwf⟩ => ?_⟩, fun hf hloc => ?_⟩
  · have hpc' := (pc_of_committed hi h (by simp [hrun])).2
    exact ⟨hpc', fun hthree => by rw [hpc', (operandCount_eq_two_iff i).2 hthree]⟩
  · obtain ⟨r, hr, rfl⟩ := hfault hf
    obtain ⟨htwo, h253, _⟩ := hr.of_loc_pc hloc
    refine ⟨h253, (operandCount_eq_two_iff i).1 htwo, by_contra fun hwf => ?_⟩
    obtain ⟨v, hv⟩ := exec_of_not_wellFormed hpc hwf
    rw [hv] at h
    rw [← Host.Outcome.next.inj h] at hloc
    cases hloc
  · have hf : t.status = .faulted := by
      by_contra hne
      have hle := (pc_of_committed hi h hne).1
      rw [(operandCount_eq_two_iff i).2 hthree] at hle
      omega
    obtain ⟨r, hr, rfl⟩ := hfault hf
    exact ⟨hf, hr.loc_eq_pc hpc hthree hwf⟩
  · obtain ⟨r, hr, rfl⟩ := hfault hf
    rw [(hr.of_loc_pc hloc).2.2]

/-! ### The first failing check (R184) -/

/-- The fault that an operation raises; `none` where it answers. -/
def raisedBy {α : Type} : Except Raised α → Option Raised
  | .error r => some r
  | .ok _ => none

/-- Two operations in sequence, the second raising `o` whatever the first answers: the first fault is the first one's. -/
theorem raisedBy_bind {α β : Type} {x : Except Raised α} {f : α → Except Raised β} {o : Option Raised}
    (h : ∀ a, raisedBy (f a) = o) : raisedBy (x >>= f) = (raisedBy x).or o := by
  cases x with
  | error r => rfl
  | ok a => exact h a

@[simp] theorem raisedBy_regIndex (a : Byte) :
    raisedBy (regIndex a) = if 7 < a.toNat then some (.outOfRange .reg a.toNat) else none := by
  rcases regIndex_cases a with ⟨r, hr, e⟩ | ⟨hlt, e⟩ <;> rw [e]
  · rw [if_neg (by omega), raisedBy]
  · rw [if_pos hlt, raisedBy]

@[simp] theorem raisedBy_pushByte (v : Byte) (s : State) :
    raisedBy (pushByte v s) =
      (if s.sp.toNat = 0 then some (.outOfRange .mem (-1)) else none).or
        (if pushAddr s < s.stackFloor.toNat then some (.stackCollision (pushAddr s)) else none) := by
  rcases pushByte_cases v s with ⟨hsp, e⟩ | ⟨hsp, hlt, e⟩ | ⟨hsp, hle, e⟩ <;> rw [e]
  · rw [if_pos hsp, raisedBy, Option.some_or]
  · rw [if_neg (by omega), if_pos hlt, raisedBy, Option.none_or]
  · rw [if_neg (by omega), if_neg (by omega), raisedBy, Option.none_or]

@[simp] theorem raisedBy_popByte (s : State) :
    raisedBy (popByte s) = if s.sp.toNat = 255 then some (.outOfRange .mem 256) else none := by
  rcases popByte_cases s with ⟨hsp, e⟩ | ⟨hsp, e⟩ <;> rw [e]
  · rw [if_pos hsp, raisedBy]
  · rw [if_neg (by omega), raisedBy]

@[simp] theorem raisedBy_pure {α : Type} (a : α) : raisedBy (pure a : Except Raised α) = none := rfl

@[simp] theorem raisedBy_handleHlt (s : State) : raisedBy (handleHlt s) = none := rfl

@[simp] theorem raisedBy_handleLdi (a b : Byte) (s : State) :
    raisedBy (handleLdi a b s) = raisedBy (regIndex a) :=
  (raisedBy_bind fun _ => raisedBy_pure _).trans Option.or_none

@[simp] theorem raisedBy_handlePrn (a : Byte) (s : State) : raisedBy (handlePrn a s) = raisedBy (regIndex a) :=
  (raisedBy_bind fun _ => raisedBy_pure _).trans Option.or_none

/-- Whether a push raises does not depend on the byte pushed. -/
@[simp] theorem raisedBy_handlePush (a : Byte) (s : State) :
    raisedBy (handlePush a s) = (raisedBy (regIndex a)).or (raisedBy (pushByte 0 s)) :=
  raisedBy_bind fun _ => by simp

@[simp] theorem raisedBy_handlePop (a : Byte) (s : State) :
    raisedBy (handlePop a s) = (raisedBy (regIndex a)).or (raisedBy (popByte s)) :=
  raisedBy_bind fun _ => (raisedBy_bind fun _ => raisedBy_pure _).trans Option.or_none

@[simp] theorem raisedBy_handleCall (a : Byte) (s : State) :
    raisedBy (handleCall a s) = (raisedBy (regIndex a)).or (raisedBy (pushByte (returnAddr s) s)) :=
  raisedBy_bind fun _ => (raisedBy_bind fun _ => raisedBy_pure _).trans Option.or_none

@[simp] theorem raisedBy_handleRet (s : State) : raisedBy (handleRet s) = raisedBy (popByte s) :=
  (raisedBy_bind fun _ => raisedBy_pure _).trans Option.or_none

/-- The mux raises for its two indices alone, a before b: the ALU has an operation for ADD and for MUL (R122, R125). -/
theorem raisedBy_handleAlu {ir : Byte} (hir : ir = 0xA0#8 ∨ ir = 0xA2#8) (a b : Byte) (s : State) :
    raisedBy (handleAlu ir a b s) = (raisedBy (regIndex a)).or (raisedBy (regIndex b)) := by
  have halu (x y : Byte) : raisedBy (alu ir x y).value = none := by
    rcases hir with rfl | rfl
    · rw [alu_add, AluOutput.value, raisedBy]
    · rw [alu_mul, AluOutput.value, raisedBy]
  refine raisedBy_bind fun ra => (raisedBy_bind fun rb => ?_).trans Option.or_none
  rw [raisedBy_bind fun _ => raisedBy_pure _, halu, Option.none_or]

/-- What follows the handler raises for the next pc of a three-byte instruction alone (R88). -/
theorem raisedBy_afterHandler {pc : Byte} (hpc : pc.toNat ≤ 253) (i : Instr) (t : State) :
    raisedBy (afterHandler i pc t) =
      if i.handler ∈ [Handler.ldi, Handler.mul, Handler.add] ∧ 255 < pc.toNat + 3 then
        some (.outOfRange .pc (pc.toNat + 3)) else none := by
  by_cases hi : i.handler ∈ [Handler.hlt, Handler.call, Handler.ret]
  · simp only [List.mem_cons, List.not_mem_nil, or_false] at hi
    rcases hi with e | e | e <;> simp [afterHandler, e, setsPc_iff, raisedBy]
  · rw [afterHandler_eq_advance hi]
    simp only [← operandCount_eq_two_iff]
    have hcount := operandCount_opcode_le i
    rcases Nat.lt_or_ge 255 (pc.toNat + operandCount i.opcode + 1) with hlt | hle
    · have htwo : operandCount i.opcode = 2 := by omega
      rw [advance_error hlt, htwo, if_pos ⟨rfl, by omega⟩]
      rfl
    · rw [advance_ok hle, if_neg (by omega)]
      rfl

/-- The fault of the first check in a list that fails. -/
def firstFailing (checks : List Check) : Option Raised := (checks.find? (·.fails)).map (·.raised)

theorem firstFault_eq_firstFailing (s : State) : firstFault s = firstFailing (stepChecks s) := rfl

@[simp] theorem firstFailing_nil : firstFailing [] = none := rfl

@[simp] theorem firstFailing_cons (c : Check) (checks : List Check) :
    firstFailing (c :: checks) = (if c.fails then some c.raised else none).or (firstFailing checks) := by
  cases h : c.fails <;> simp [firstFailing, h]

/-- At pc 254 and 255 one of the two checks of the operand fetch fails first, each with the value 256 (R85). -/
theorem firstFault_of_pc_ge {s : State} (hpc : 254 ≤ s.pc.toNat) : firstFault s = some (.outOfRange .mem 256) := by
  have hlt := s.pc.isLt
  rw [firstFault_eq_firstFailing]
  rcases (show s.pc.toNat = 254 ∨ s.pc.toNat = 255 by omega) with e | e <;> simp [stepChecks, e]

/-- At pc 253 or below both checks of the operand fetch pass (R85). -/
theorem firstFault_of_pc_le {s : State} (hpc : s.pc.toNat ≤ 253) :
    firstFault s = firstFailing ((stepChecks s).drop 2) := by
  have hfst : ¬ 255 < s.pc.toNat + 1 := by omega
  have hsnd : ¬ 255 < s.pc.toNat + 2 := by omega
  rw [firstFault_eq_firstFailing, stepChecks, firstFailing_cons, firstFailing_cons]
  simp [hfst, hsnd]

/-- Past the operand fetch, a byte without a dispatch entry fails the next check (R86). -/
theorem firstFault_of_dispatch_none {s : State} (hpc : s.pc.toNat ≤ 253) (hnone : dispatch s.fetchOpcode = none) :
    firstFault s = some .unknownOpcode := by
  have hne := forall_handler_iff.1 (dispatch_eq_none_iff.1 hnone)
  simp only [State.fetchOpcode, Handler.opcode] at hne
  simp [firstFault_of_pc_le hpc, stepChecks, hne]

/-- Where the fetched bytes decode, R184's list is the checks of the instruction's handler, then of its advance, in order. -/
theorem firstFault_of_decode {s : State} {i : Instr} (hpc : s.pc.toNat ≤ 253)
    (hdec : decode s.fetchOpcode s.operandA s.operandB = .ok i) :
    firstFault s = raisedBy (handle i s >>= afterHandler i s.pc) := by
  have hpush : s.sp.toNat - 1 = pushAddr s := rfl
  obtain ⟨hir, hi⟩ := decode_eq_ok hdec
  rw [raisedBy_bind (raisedBy_afterHandler hpc i), firstFault_of_pc_le hpc]
  rw [State.fetchOpcode, Instr.opcode] at hir
  rw [hi, assemble_handler]
  generalize i.handler = h at hir
  cases h <;>
    simp [stepChecks, hir, Handler.opcode, Handler.assemble, handle, raisedBy_handleAlu, hpush, Option.or_assoc,
      State.operandA, State.operandB]

/-- A handler and an advance that both answer commit within the instruction's frame. -/
theorem commitFrame_of_handled {i : Instr} {s t : State} (h : handle i s >>= afterHandler i s.pc = .ok t) :
    CommitFrame i s t := by
  cases hh : handle i s with
  | error r => simp [hh] at h
  | ok u =>
    rw [hh, ok_bind] at h
    rw [afterHandler_eq_ok h]
    exact (handle_commitFrame hh).setPc _

/-- A step of a running core raises the first check of R184's list that fails; where none fails, it commits the instruction
it fetched within that instruction's frame. -/
theorem step_first_fault_or_commits {s t : State} (hs : s.status = .running) (h : step s = .next t) :
    (∃ r, firstFault s = some r ∧ t = faultEntry r s.fetchOpcode s) ∨
      (firstFault s = none ∧ ∃ i, decode s.fetchOpcode s.operandA s.operandB = .ok i ∧ CommitFrame i s t) := by
  rcases step_cases hs with ⟨hpc, e⟩ | ⟨hpc, hnone, e⟩ | ⟨hpc, i, hdec, e⟩ <;> rw [e] at h
  · exact .inl ⟨_, firstFault_of_pc_ge hpc, (Host.Outcome.next.inj h).symm⟩
  · exact .inl ⟨_, firstFault_of_dispatch_none hpc hnone, (Host.Outcome.next.inj h).symm⟩
  · rw [firstFault_of_decode hpc hdec]
    rw [exec_eq_settle hpc, ← (decode_eq_ok hdec).1] at h
    cases hx : handle i s >>= afterHandler i s.pc with
    | error r =>
      rw [hx] at h
      exact .inl ⟨r, rfl, (Host.Outcome.next.inj h).symm⟩
    | ok u =>
      rw [hx] at h
      cases h
      exact .inr ⟨rfl, i, hdec, commitFrame_of_handled hx⟩

/-! ### The moves of STATUS (R80) -/

theorem opcode_eq_hlt_iff (i : Instr) : i.opcode = 0x01#8 ↔ i = .hlt := by
  cases i <;> simp [Instr.opcode, Instr.handler, Handler.opcode]

/-- A host action is a Reset, a Start in RESET, or keeps STATUS. -/
theorem hostAct_status_cases {act : HostAction} {s t : State} (h : hostAct act s = some t) :
    (∃ x, act = .reset x) ∨ (act = .start ∧ s.status = .reset ∧ t.status = .running) ∨ t.status = s.status := by
  rcases hostAct_cases h with ⟨x, e, _⟩ | ⟨e, hs, rfl⟩ | ⟨_, _, rfl⟩ | ⟨a, v, _, _, rfl⟩ | ⟨l, _, _, _, rfl⟩
  · exact .inl ⟨x, e⟩
  · exact .inr (.inl ⟨e, hs, rfl⟩)
  all_goals exact .inr (.inr rfl)

/-- Settles O29: a running step faults where a check fails and otherwise commits, to HALTED for HLT alone; HALTED and FAULTED
step to themselves; and Reset and Start are the only moves of the host. -/
theorem statusMovesAsTabled : Obligations.StatusMovesAsTabled := by
  refine ⟨fun x s => ⟨_, rfl, rfl⟩, fun s hs => ⟨s.setStatus .running, by rw [hostAct, hs], rfl⟩, fun s t hs h => ?_,
    fun s hs => ?_, fun act s t h hne => ?_⟩
  · rcases step_first_fault_or_commits hs h with ⟨r, hr, rfl⟩ | ⟨hnone, i, hdec, hc⟩
    · simp [hr]
    · have hir : s.readByte s.pc.toNat = i.opcode := (decode_eq_ok hdec).1
      rw [hc.status, hir, ne_eq i.opcode, opcode_eq_hlt_iff, hs]
      by_cases hi : i = .hlt <;> simp [hi, hnone]
  · refine ⟨step_of_not_running (by rcases hs with e | e <;> simp [e]), fun act t hact h => ?_⟩
    rcases hostAct_status_cases h with ⟨x, e⟩ | ⟨_, e, _⟩ | e
    · exact absurd e (hact x)
    · simp [e] at hs
    · exact e
  · rcases hostAct_status_cases h with e | e | e
    · exact .inl e
    · exact .inr e
    · exact absurd e hne

end Sys2Proof.Machine

/-! SUPPORT. The statements of 41_basic.md, and the layer they rest on: the rendering of output, and what an instruction with
the generic advance makes of the state its handler answers. -/

namespace Sys2Proof.Machine.HostText

/-! ### Rendered output (R105) -/

theorem digitChar_ne_zero {n : Nat} (h : n ≠ 0) (hn : n < 10) : n.digitChar ≠ '0' :=
  (show ∀ d : Fin 10, d.val ≠ 0 → Nat.digitChar d ≠ '0' by decide) ⟨n, hn⟩ h

/-- The numeral of a number other than zero has no leading zero, by recursion on the number without its last digit. -/
theorem head?_toDigits_ne_zero {n : Nat} (h : n ≠ 0) : (Nat.toDigits 10 n).head? ≠ some '0' := by
  induction n using Nat.strongRecOn with
  | ind n ih =>
    rcases Nat.lt_or_ge n 10 with hlt | hge
    · rw [Nat.toDigits_of_lt_base hlt, List.head?_singleton]
      exact fun e => digitChar_ne_zero h hlt (Option.some.inj e)
    · rw [Nat.toDigits_of_base_le (by decide) hge, List.head?_append_of_ne_nil _ Nat.toDigits_ne_nil]
      exact ih (n / 10) (by omega) (by omega)

theorem toDigits_eq_zero_of_head? {n : Nat} (h : (Nat.toDigits 10 n).head? = some '0') : Nat.toDigits 10 n = ['0'] := by
  by_cases hn : n = 0
  · rw [hn, Nat.toDigits_zero]
  · exact absurd h (head?_toDigits_ne_zero hn)

theorem renderLog_append (l m : List Byte) : renderLog (l ++ m) = renderLog l ++ renderLog m :=
  List.flatMap_append

theorem renderLog_singleton (v : Byte) : renderLog [v] = renderByte v :=
  List.flatMap_singleton _ _

/-- Settles O49: a line is the library's decimal numeral, which reads back as the number. -/
theorem renderedOutputIsDecimalLines : Obligations.RenderedOutputIsDecimalLines :=
  ⟨fun v => ⟨Nat.toDigits 10 v.toNat, rfl, numeral_toDigits v.toNat, toDigits_eq_zero_of_head?⟩,
    renderLog_append, renderLog_singleton⟩

end Sys2Proof.Machine.HostText

namespace Sys2Proof.Machine

/-! ### From a handler's answer to `exec`'s (R82, R88) -/

/-- Where the next pc is in range, an instruction with the generic advance commits its handler's state at that pc (R88). -/
theorem exec_of_next_pc_le {i : Instr} {s t : State} {n : Nat}
    (hi : i.handler ∉ [Handler.hlt, Handler.call, Handler.ret]) (hlen : i.length = n) (hpc : s.pc.toNat ≤ 253)
    (h : handle i s = .ok t) (hle : s.pc.toNat + n ≤ 255) :
    exec i s = .next (t.setPc (BitVec.ofNat 8 (s.pc.toNat + n))) := by
  subst hlen
  rw [exec_eq_settle hpc, h, ok_bind, afterHandler_eq_advance hi, advance_ok hle, settle]
  rfl

/-- At pc 253 a three-byte instruction has no next pc: it faults once its handler has answered (R88, R184). -/
theorem exec_of_next_pc_eq_256 {i : Instr} {s t : State} (hi : i.handler ∈ [Handler.ldi, Handler.mul, Handler.add])
    (hpc : s.pc.toNat = 253) (h : handle i s = .ok t) :
    exec i s = .next (faultEntry (.outOfRange .pc 256) i.opcode s) := by
  have hadv : i.handler ∉ [Handler.hlt, Handler.call, Handler.ret] :=
    (show ∀ h ∈ [Handler.ldi, .mul, .add], h ∉ [Handler.hlt, .call, .ret] by decide) _ hi
  have hcount := (operandCount_eq_two_iff i).2 hi
  rw [exec_eq_settle hpc.le, h, ok_bind, afterHandler_eq_advance hadv, advance_error (by omega), settle, hpc, hcount]
  rfl

/-- An instruction whose first operand is a register operand above 7 raises with its value (R23). -/
theorem exec_of_first_operand_gt {i : Instr} {s : State} {a : Byte} {rest : List Byte} (hi : i.registerOperands = a :: rest)
    (hpc : s.pc.toNat ≤ 253) (ha : 7 < a.toNat) : exec i s = .next (faultEntry (.outOfRange .reg a.toNat) i.opcode s) :=
  exec_of_handle_error hpc (handle_error_of_first_bad_operand s (by simp [hi, ha]))

/-- An instruction that does not end FAULTED commits its handler's state, but for pc (R90). -/
theorem exec_eq_setPc_of_not_faulted {i : Instr} {s t : State} (h : exec i s = .next t) (ht : t.status ≠ .faulted) :
    ∃ u p, handle i s = .ok u ∧ t = u.setPc p := by
  obtain ⟨_, u, hu, hadv⟩ := exec_eq_next_of_not_faulted h ht
  exact ⟨u, t.pc, hu, afterHandler_eq_ok hadv⟩

/-! ### LDI and PRN (R102, R104) -/

theorem regIndex_eq_ok_of_toNat {a : Byte} {r : Fin 8} (h : a.toNat = r.val) : regIndex a = .ok r := by
  rw [regIndex_ok (h ▸ r.isLt)]
  exact congrArg Except.ok (Fin.ext h)

theorem handle_ldi {a : Byte} {r : Fin 8} (h : a.toNat = r.val) (b : Byte) (s : State) :
    handle (.ldi a b) s = .ok (s.setReg r b) := by
  rw [handle, handleLdi, regIndex_eq_ok_of_toNat h]
  rfl

theorem handle_prn {a : Byte} {r : Fin 8} (h : a.toNat = r.val) (s : State) :
    handle (.prn a) s = .ok (s.emit (s.getReg r)) := by
  rw [handle, handlePrn, regIndex_eq_ok_of_toNat h]
  rfl

/-- Settles O12: the register index decides what the handler answers, and pc whether the advance follows. -/
theorem ldiRule : Obligations.LdiRule := by
  refine fun a b s => ⟨rfl, fun r ha hpc => ?_, exec_of_pc_ge, exec_of_first_operand_gt rfl, fun hpc ha => ?_⟩
  · exact exec_of_next_pc_le (by simp [Instr.handler]) (length_eq_operandBytes _) (by omega) (handle_ldi ha b s)
      (Nat.add_le_add_right hpc 3)
  · exact exec_of_next_pc_eq_256 (by simp [Instr.handler]) hpc (handle_ldi (r := ⟨a.toNat, by omega⟩) rfl b s)

/-- Settles O13: the register index decides what the handler answers; at pc 253 or below the next pc is in range. -/
theorem prnRule : Obligations.PrnRule := by
  refine fun a s => ⟨fun _ => rfl, fun r ha hpc => ?_, exec_of_pc_ge, exec_of_first_operand_gt rfl⟩
  exact exec_of_next_pc_le (by simp [Instr.handler]) (length_eq_operandBytes _) hpc (handle_prn ha s)
    (Nat.add_le_add_right hpc 2)

/-! ### HLT (R100) -/

/-- A step that enters HALTED ran HLT on a running core (R80, R100). -/
theorem running_hlt_of_step_enters_halted {s t : State} (hs : s.status ≠ .halted) (h : step s = .next t)
    (ht : t.status = .halted) : s.status = .running ∧ s.pc.toNat ≤ 253 ∧ s.fetchOpcode = Instr.hlt.opcode := by
  have hrun : s.status = .running := by
    by_contra hne
    rw [step_of_not_running hne] at h
    cases h
    exact hs ht
  rcases step_cases hrun with ⟨_, e⟩ | ⟨_, _, e⟩ | ⟨hpc, i, hdec, e⟩ <;> rw [e] at h
  · cases h
    cases ht
  · cases h
    cases ht
  · rcases exec_faults_or_commits h with ⟨r, _, rfl⟩ | hc
    · cases ht
    · have hi : i = .hlt := by
        by_contra hne
        rw [hc.status, if_neg hne] at ht
        exact hs ht
      exact ⟨hrun, hpc, hi ▸ (decode_eq_ok hdec).1⟩

/-- Settles O11: HLT commits its handler's state, which no later step changes, and no other commit sets HALTED. -/
theorem hltRule : Obligations.HltRule :=
  ⟨fun _ _ => rfl, fun _ hpc => ⟨exec_hlt hpc, step_of_not_running (by simp)⟩, fun _ => exec_of_pc_ge,
    fun _ _ => running_hlt_of_step_enters_halted⟩

/-! ### LDI, then PRN (R103) -/

theorem toNat_ofNat_fin (r : Fin 8) : (BitVec.ofNat 8 r.val).toNat = r.val := by
  have hlt := r.isLt
  rw [BitVec.toNat_ofNat]
  omega

/-- Settles O36: LDI leaves the immediate in the register and the log alone, and PRN appends what the register holds. -/
theorem ldiPrnRoundTrip : Obligations.LdiPrnRoundTrip := by
  intro s t u r v _ hldi ht hprn hu
  obtain ⟨t', p, hset, rfl⟩ := exec_eq_setPc_of_not_faulted hldi (by simp [ht])
  obtain ⟨u', q, hemit, rfl⟩ := exec_eq_setPc_of_not_faulted hprn (by simp [hu])
  rw [handle_ldi (toNat_ofNat_fin r)] at hset
  rw [handle_prn (toNat_ofNat_fin r)] at hemit
  have hlog : (u'.setPc q).outputLog = s.outputLog ++ [v] := by
    cases hset
    cases hemit
    simp
  exact ⟨hlog, by rw [hlog, HostText.renderLog_append, HostText.renderLog_singleton, HostText.renderByte]⟩

end Sys2Proof.Machine

/-! SUPPORT. The statements of 42_alu.md, and the layer they rest on: the ALU's outcome for each operation, and what the mux
makes of it. -/

namespace Sys2Proof.Machine

/-! ### The ALU's function (R121, R126) -/

theorem alu_of_not_add_mul {op : Byte} (hadd : op ≠ 0xA0#8) (hmul : op ≠ 0xA2#8) (x y : Byte) :
    alu op x y = .unsupportedAluOp := by
  rw [alu, if_neg hadd, if_neg hmul]

theorem alu_eq_result_add_or_mul {op x y r : Byte} (h : alu op x y = .result r) : op = 0xA0#8 ∨ op = 0xA2#8 := by
  by_contra hne
  obtain ⟨hadd, hmul⟩ := not_or.1 hne
  rw [alu_of_not_add_mul hadd hmul] at h
  cases h

/-- Settles O8: the two operations are those of `BitVec 8`, whose values are exact modulo 256. -/
theorem aluFunction : Obligations.AluFunction := by
  refine fun op x y => ⟨?_, ?_, fun hadd hmul => alu_of_not_add_mul hadd hmul x y⟩
  · rintro rfl
    exact ⟨x + y, alu_add x y, BitVec.toNat_add x y⟩
  · rintro rfl
    exact ⟨x * y, alu_mul x y, BitVec.toNat_mul x y⟩

/-- The laws of the function an operation computes are the laws of its results. -/
theorem alu_comm_assoc {op : Byte} {f : Byte → Byte → Byte} (halu : ∀ x y, alu op x y = .result (f x y))
    (hcomm : ∀ x y, f x y = f y x) (hassoc : ∀ x y z, f (f x y) z = f x (f y z)) (x y z p q : Byte) :
    (∃ r, alu op x y = .result r) ∧ alu op x y = alu op y x ∧
      (alu op x y = .result p → alu op y z = .result q → alu op p z = alu op x q) := by
  refine ⟨⟨_, halu x y⟩, by rw [halu, halu, hcomm], fun hp hq => ?_⟩
  rw [halu] at hp hq
  cases hp
  cases hq
  rw [halu, halu, hassoc]

theorem alu_mul_add_distrib {x y z p q r : Byte} (hp : alu 0xA0#8 y z = .result p) (hq : alu 0xA2#8 x y = .result q)
    (hr : alu 0xA2#8 x z = .result r) : alu 0xA2#8 x p = alu 0xA0#8 q r := by
  rw [alu_add] at hp
  rw [alu_mul] at hq hr
  cases hp
  cases hq
  cases hr
  rw [alu_mul, alu_add, BitVec.mul_add]

/-- Settles O9: bytes are a commutative ring modulo 256, and ADD and MUL are its operations. -/
theorem aluLaws : Obligations.AluLaws := by
  refine ⟨fun op hop => ?_, fun _ _ _ _ _ _ => alu_mul_add_distrib, fun x y r => ⟨fun h => ?_, fun h => ?_⟩,
    fun _ _ _ _ => alu_eq_result_add_or_mul⟩
  · rcases List.mem_pair.1 hop with rfl | rfl
    · exact alu_comm_assoc alu_add BitVec.add_comm BitVec.add_assoc
    · exact alu_comm_assoc alu_mul BitVec.mul_comm BitVec.mul_assoc
  · rw [alu_add] at h
    cases h
    exact BitVec.toNat_add x y
  · rw [alu_mul] at h
    cases h
    exact BitVec.toNat_mul x y

/-! ### `UnsupportedAluOp` is unreachable (R125) -/

theorem FaultRecord.asTabled.kind_ne_unsupportedAluOp {f : FaultRecord} (h : f.asTabled) :
    f.kind ≠ .unsupportedAluOp := by
  rcases h with ⟨e, _⟩ | ⟨e, _⟩ | ⟨e, _⟩ | ⟨e, _⟩ | ⟨e, _⟩ <;> simp [e]

/-- No step records `UnsupportedAluOp`: a fault is a row of R180's table, and a commit keeps the record. -/
theorem step_kind_ne_unsupportedAluOp {s t : State} (hs : s.fault.kind ≠ .unsupportedAluOp) (h : step s = .next t) :
    t.fault.kind ≠ .unsupportedAluOp := by
  by_cases hrun : s.status = .running
  · rcases step_faults_or_commits hrun h with ⟨_, _, htab⟩ | ⟨_, _, hc⟩
    · exact htab.kind_ne_unsupportedAluOp
    · rwa [hc.fault]
  · rw [step_of_not_running hrun] at h
    cases h
    exact hs

theorem isAlu_iff_of_dispatch {op : Byte} {h : Handler} (hd : dispatch op = some h) :
    h.isAlu = true ↔ op = 0xA0#8 ∨ op = 0xA2#8 := by
  rw [eq_opcode_of_dispatch hd]
  cases h <;> decide

/-- An operation that dispatch does not send to the ALU is neither ADD's nor MUL's, which it does send. -/
theorem alu_of_not_dispatched {op : Byte} (h : ∀ k, dispatch op = some k → k.isAlu = false) (x y : Byte) :
    alu op x y = .unsupportedAluOp := by
  refine alu_of_not_add_mul ?_ ?_ x y
  · rintro rfl
    exact absurd (h .add rfl) (by decide)
  · rintro rfl
    exact absurd (h .mul rfl) (by decide)

/-- Settles O10: the step keeps the record free of the kind, and dispatch and the ALU say why. -/
theorem unsupportedAluOpNeverRecorded : Obligations.UnsupportedAluOpNeverRecorded :=
  ⟨fun _ _ => step_kind_ne_unsupportedAluOp, fun _ _ => isAlu_iff_of_dispatch, fun _ x y h => alu_of_not_dispatched h x y,
    fun _ => step_of_dispatch_none⟩

/-! ### ADD and MUL (R122, R123, R124) -/

/-- Where both operands name registers, the mux writes the ALU's result into the first, read before the write (R122). -/
theorem handleAlu_ok {ir a b y : Byte} {r q : Fin 8} {s : State} (ha : a.toNat = r.val) (hb : b.toNat = q.val)
    (halu : alu ir (s.getReg r) (s.getReg q) = .result y) : handleAlu ir a b s = .ok (s.setReg r y) := by
  rw [handleAlu, regIndex_eq_ok_of_toNat ha, ok_bind, regIndex_eq_ok_of_toNat hb, ok_bind, halu]
  rfl

/-- The second register operand is checked after the first (R122). -/
theorem exec_of_second_operand_gt {i : Instr} {s : State} {a b : Byte} {rest : List Byte}
    (hi : i.registerOperands = a :: b :: rest) (hpc : s.pc.toNat ≤ 253) (ha : a.toNat ≤ 7) (hb : 7 < b.toNat) :
    exec i s = .next (faultEntry (.outOfRange .reg b.toNat) i.opcode s) :=
  exec_of_handle_error hpc (handle_error_of_first_bad_operand s (by simp [hi, Nat.not_lt.2 ha, hb]))

/-! Of a three-byte instruction whose handler is the mux. -/

section
variable {i : Instr} {a b : Byte} {s : State} (hi : i.handler ∈ [Handler.ldi, Handler.mul, Handler.add])
  (hh : handle i s = handleAlu i.opcode a b s)
include hi hh

/-- The completion of an ALU instruction (R88, R122). -/
theorem exec_alu_of_pc_le {y : Byte} {r q : Fin 8} (ha : a.toNat = r.val) (hb : b.toNat = q.val) (hpc : s.pc.toNat ≤ 252)
    (halu : alu i.opcode (s.getReg r) (s.getReg q) = .result y) :
    exec i s = .next ((s.setReg r y).setPc (BitVec.ofNat 8 (s.pc.toNat + 3))) := by
  have hadv : i.handler ∉ [Handler.hlt, Handler.call, Handler.ret] :=
    (show ∀ h ∈ [Handler.ldi, .mul, .add], h ∉ [Handler.hlt, .call, .ret] by decide) _ hi
  have hlen : i.length = 3 := congrArg (· + 1) ((operandCount_eq_two_iff i).2 hi)
  exact exec_of_next_pc_le hadv hlen (by omega) (hh.trans (handleAlu_ok ha hb halu)) (by omega)

/-- An ALU instruction with both indices in range at pc 253 has no next pc (R88). -/
theorem exec_alu_of_pc_eq_253 (hpc : s.pc.toNat = 253) (ha : a.toNat ≤ 7) (hb : b.toNat ≤ 7)
    (halu : ∀ x y, ∃ z, alu i.opcode x y = .result z) :
    exec i s = .next (faultEntry (.outOfRange .pc 256) i.opcode s) := by
  obtain ⟨_, hz⟩ := halu (s.getReg ⟨a.toNat, by omega⟩) (s.getReg ⟨b.toNat, by omega⟩)
  exact exec_of_next_pc_eq_256 hi hpc (hh.trans (handleAlu_ok rfl rfl hz))

end

/-- Settles O14: the indices decide what the mux answers, and pc whether the advance follows. -/
theorem addRule : Obligations.AddRule := by
  intro a b s
  have hi : (Instr.add a b).handler ∈ [Handler.ldi, Handler.mul, Handler.add] := by simp [Instr.handler]
  exact ⟨rfl, fun _ _ ha hb hpc => exec_alu_of_pc_le hi rfl ha hb hpc rfl, exec_of_pc_ge, exec_of_first_operand_gt rfl,
    exec_of_second_operand_gt rfl, fun hpc ha hb => exec_alu_of_pc_eq_253 hi rfl hpc ha hb fun x y => ⟨_, alu_add x y⟩⟩

/-- Settles O15: as for ADD, with the ALU's other operation. -/
theorem mulRule : Obligations.MulRule := by
  intro a b s
  have hi : (Instr.mul a b).handler ∈ [Handler.ldi, Handler.mul, Handler.add] := by simp [Instr.handler]
  exact ⟨rfl, fun _ _ ha hb hpc => exec_alu_of_pc_le hi rfl ha hb hpc rfl, exec_of_pc_ge, exec_of_first_operand_gt rfl,
    exec_of_second_operand_gt rfl, fun hpc ha hb => exec_alu_of_pc_eq_253 hi rfl hpc ha hb fun x y => ⟨_, alu_mul x y⟩⟩

end Sys2Proof.Machine

/-! SUPPORT. The statements of 43_stack.md, and the layer they rest on: what a push and a pop answer, what a sequence of
pushes leaves behind, and that no committed store goes below STACK_FLOOR. -/

namespace Sys2Proof.Machine

/-! ### No store below STACK_FLOOR (R29, R42, R141) -/

/-- An instruction that stores has passed the check of its push, so it stores at STACK_FLOOR or above (R141). -/
theorem floor_le_storeAddr {i : Instr} {s t : State} (h : handle i s = .ok t) {a : Nat} (ha : i.storeAddr s = some a) :
    s.stackFloor.toNat ≤ a := by
  rcases handle_ok_cases h with ⟨rfl, _⟩ | ⟨_, _, _, rfl, _⟩ | ⟨_, _, rfl, _⟩ | ⟨_, _, _, _, rfl, _⟩ | ⟨_, _, _, _, rfl, _⟩ |
    ⟨_, _, rfl, _, _, hfloor, _⟩ | ⟨_, _, rfl, _⟩ | ⟨_, _, rfl, _, _, hfloor, _⟩ | ⟨rfl, _⟩ <;> cases ha
  · exact hfloor
  · exact hfloor

/-- What a run keeps: STACK_FLOOR, and every byte below it. -/
structure KeepsBelowFloor (s t : State) : Prop where
  stackFloor : t.stackFloor = s.stackFloor
  readByte : ∀ a, a < s.stackFloor.toNat → t.readByte a = s.readByte a

theorem KeepsBelowFloor.refl (s : State) : KeepsBelowFloor s s := ⟨rfl, fun _ _ => rfl⟩

theorem KeepsBelowFloor.trans {s t u : State} (hst : KeepsBelowFloor s t) (htu : KeepsBelowFloor t u) :
    KeepsBelowFloor s u where
  stackFloor := htu.stackFloor.trans hst.stackFloor
  readByte a ha := (htu.readByte a (hst.stackFloor ▸ ha)).trans (hst.readByte a ha)

theorem faultEntry_keepsBelowFloor (r : Raised) (ir : Byte) (s : State) : KeepsBelowFloor s (faultEntry r ir s) :=
  ⟨rfl, fun _ _ => rfl⟩

/-- A fault keeps memory whole; a commit keeps every byte but the one it stores, which lies at STACK_FLOOR or above. -/
theorem exec_keepsBelowFloor {i : Instr} {s t : State} (h : exec i s = .next t) : KeepsBelowFloor s t := by
  rcases exec_cases i s with ⟨r, e⟩ | ⟨_, u, w, hu, hw, e⟩ <;> rw [e] at h <;> cases h
  · exact faultEntry_keepsBelowFloor r i.opcode s
  · rw [afterHandler_eq_ok hw]
    have hc := handle_commitFrame hu
    exact ⟨hc.stackFloor, fun a ha => hc.readByte fun hstore => Nat.not_le.2 ha (floor_le_storeAddr hu hstore)⟩

theorem step_keepsBelowFloor {s t : State} (h : step s = .next t) : KeepsBelowFloor s t := by
  by_cases hs : s.status = .running
  · rcases step_cases hs with ⟨_, e⟩ | ⟨_, _, e⟩ | ⟨_, i, _, e⟩ <;> rw [e] at h
    · cases h
      exact faultEntry_keepsBelowFloor _ _ s
    · cases h
      exact faultEntry_keepsBelowFloor _ _ s
    · exact exec_keepsBelowFloor h
  · rw [step_of_not_running hs] at h
    cases h
    exact .refl s

/-- A reflexive and transitive relation that every step obeys holds between the ends of every run. -/
theorem rel_of_runsTo {R : State → State → Prop} (hrefl : ∀ s, R s s) (htrans : ∀ {s t u}, R s t → R t u → R s u)
    (hstep : ∀ {s t}, step s = .next t → R s t) {k : Nat} {s t : State} (h : runsTo k s t) : R s t := by
  induction k generalizing s with
  | zero => exact Host.Outcome.next.inj h ▸ hrefl s
  | succ k ih =>
    obtain ⟨u, hu⟩ := stepAlwaysAnswers s
    exact htrans (hstep hu) (ih ((run_succ_of_step (M := Sys2Proof.core) hu k).symm.trans h))

/-- Settles O39: every step keeps STACK_FLOOR and the bytes below it, by induction on the number of steps. -/
theorem bytesBelowFloorIntact : Obligations.BytesBelowFloorIntact := fun _ _ _ h =>
  have hkeeps := rel_of_runsTo KeepsBelowFloor.refl KeepsBelowFloor.trans step_keepsBelowFloor h
  ⟨hkeeps.stackFloor, hkeeps.readByte⟩

/-! ### The stack micro-operations (R141, R142) -/

theorem pushByte_of_sp_eq_zero {s : State} (h : s.sp.toNat = 0) (v : Byte) :
    pushByte v s = .error (.outOfRange .mem (-1)) := by
  rw [pushByte, if_pos (by omega)]

theorem pushByte_of_lt_floor {s : State} (hsp : 1 ≤ s.sp.toNat) (h : pushAddr s < s.stackFloor.toNat) (v : Byte) :
    pushByte v s = .error (.stackCollision (pushAddr s)) := by
  rw [pushByte, if_neg (by omega), if_pos h]

theorem pushByte_of_floor_le {s : State} (hsp : 1 ≤ s.sp.toNat) (h : s.stackFloor.toNat ≤ pushAddr s) (v : Byte) :
    pushByte v s = .ok ((s.setSp (BitVec.ofNat 8 (pushAddr s))).writeByte (pushAddr s) v) := by
  rw [pushByte, if_neg (by omega), if_neg (by omega)]

/-- Settles O33: underflow is tested first, then collision; past both, the byte lands at the decremented sp. -/
theorem pushMicroOperation : Obligations.PushMicroOperation :=
  fun v s => ⟨fun h => pushByte_of_sp_eq_zero h v, fun hsp h => pushByte_of_lt_floor hsp h v,
    fun hsp h => ⟨_, pushByte_of_floor_le hsp h v, pushAddr_mod_256 s, State.readByte_writeByte_same _ _ _,
      fun _ hn => State.readByte_writeByte_ne _ hn v, rfl⟩⟩

theorem popByte_of_sp_eq_255 {s : State} (h : s.sp.toNat = 255) : popByte s = .error (.outOfRange .mem 256) := by
  rcases popByte_cases s with ⟨_, e⟩ | ⟨hle, _⟩
  · exact e
  · omega

theorem popByte_of_sp_le {s : State} (h : s.sp.toNat ≤ 254) :
    popByte s = .ok (s.readByte s.sp.toNat, s.setSp (BitVec.ofNat 8 (s.sp.toNat + 1))) := by
  rcases popByte_cases s with ⟨heq, _⟩ | ⟨_, e⟩
  · omega
  · exact e

/-- Settles O34: the value of sp alone decides what a pop answers. -/
theorem popMicroOperation : Obligations.PopMicroOperation :=
  fun _ => ⟨popByte_of_sp_eq_255, popByte_of_sp_le⟩

/-! ### PUSH and POP (R143, R144) -/

theorem handle_push {a : Byte} {r : Fin 8} (h : a.toNat = r.val) (s : State) :
    handle (.push a) s = pushByte (s.getReg r) s := by
  rw [handle, handlePush, regIndex_eq_ok_of_toNat h]
  rfl

theorem handle_pop {a : Byte} {r : Fin 8} (h : a.toNat = r.val) (s : State) :
    handle (.pop a) s = (popByte s).map fun p => p.2.setReg r p.1 := by
  rw [handle, handlePop, regIndex_eq_ok_of_toNat h]
  cases popByte s <;> rfl

/-- Settles O16: the index, then sp and STACK_FLOOR decide what the handler answers; the advance cannot fault. -/
theorem pushRule : Obligations.PushRule := by
  intro a s
  refine ⟨fun _ => rfl, fun r ha hpc hsp hfloor => ?_, exec_of_pc_ge, exec_of_first_operand_gt rfl, fun hpc ha hsp => ?_,
    fun hpc ha hsp hlt => ?_⟩
  · have hexec := exec_of_next_pc_le (n := 2) (by simp [Instr.handler]) (length_eq_operandBytes (.push a)) hpc
      ((handle_push ha s).trans (pushByte_of_floor_le hsp hfloor _)) (Nat.add_le_add_right hpc 2)
    refine ⟨_, hexec, pushAddr_mod_256 s, by simp [State.getReg], fun n hn => ?_, Nat.mod_eq_of_lt (by omega), rfl, rfl, rfl,
      rfl, rfl⟩
    exact State.readByte_writeByte_ne (s.setSp _) hn _
  · exact exec_of_handle_error hpc ((handle_push (r := ⟨a.toNat, by omega⟩) rfl s).trans (pushByte_of_sp_eq_zero hsp _))
  · exact exec_of_handle_error hpc ((handle_push (r := ⟨a.toNat, by omega⟩) rfl s).trans (pushByte_of_lt_floor hsp hlt _))

/-- Settles O17: the index, then sp decide what the handler answers; the advance cannot fault. -/
theorem popRule : Obligations.PopRule := by
  intro a s
  refine ⟨fun _ => rfl, fun r ha hpc hsp => ?_, exec_of_pc_ge, exec_of_first_operand_gt rfl, fun hpc ha hsp => ?_⟩
  · exact exec_of_next_pc_le (by simp [Instr.handler]) (length_eq_operandBytes (.pop a)) hpc
      (by rw [handle_pop ha, popByte_of_sp_le hsp]; rfl) (Nat.add_le_add_right hpc 2)
  · exact exec_of_handle_error hpc (by rw [handle_pop (r := ⟨a.toNat, by omega⟩) rfl, popByte_of_sp_eq_255 hsp]; rfl)

/-! ### PUSH, then POP (R145) -/

/-- What POP's handler answers where it answers (R144). -/
theorem handle_pop_eq_ok {a : Byte} {s t : State} (h : handle (.pop a) s = .ok t) :
    ∃ r : Fin 8, r.val = a.toNat ∧ s.sp.toNat ≤ 254 ∧
      t = (s.setSp (BitVec.ofNat 8 (s.sp.toNat + 1))).setReg r (s.readByte s.sp.toNat) := by
  simpa using handle_ok_cases h

/-- Settles O35: the pop reads the cell at sp, which is the one the push wrote, and adds back the 1 the push took. -/
theorem pushPopRoundTrip : Obligations.PushPopRoundTrip := by
  intro s t u r q _ hpush ht hpop hu
  obtain ⟨t', p, hstored, rfl⟩ := exec_eq_setPc_of_not_faulted hpush (by simp [ht])
  obtain ⟨u', p', hloaded, rfl⟩ := exec_eq_setPc_of_not_faulted hpop (by simp [hu])
  obtain ⟨r', hr, hsp, _, rfl⟩ := handle_push_eq_ok hstored
  obtain ⟨q', hq, _, rfl⟩ := handle_pop_eq_ok hloaded
  obtain rfl : r = r' := (ofNat_fin_eq_iff hr).1 rfl
  obtain rfl : q = q' := (ofNat_fin_eq_iff hq).1 rfl
  have hback : pushAddr s + 1 = s.sp.toNat := Nat.sub_add_cancel hsp
  exact ⟨by simp, by simp [hback], State.readByte_writeByte_same (s.setSp _) (pushAddr s) _⟩

/-! ### The capacity of the stack (R147) -/

theorem pushByte_eq_ok {v : Byte} {s t : State} (h : pushByte v s = .ok t) :
    1 ≤ s.sp.toNat ∧ s.stackFloor.toNat ≤ pushAddr s ∧
      t = (s.setSp (BitVec.ofNat 8 (pushAddr s))).writeByte (pushAddr s) v := by
  rcases pushByte_cases v s with ⟨_, e⟩ | ⟨_, _, e⟩ | ⟨hsp, hfloor, e⟩ <;> rw [e] at h <;> cases h
  exact ⟨hsp, hfloor, rfl⟩

theorem pushAll_cons_eq_ok_iff {v : Byte} {vs : List Byte} {s t : State} :
    pushAll (v :: vs) s = .ok t ↔ ∃ u, pushByte v s = .ok u ∧ pushAll vs u = .ok t := by
  rw [pushAll]
  cases pushByte v s <;> simp [Except.bind]

/-- What `n` pushes leave: sp is `n` lower, and STACK_FLOOR and the cells from the old sp upwards are as before. -/
structure PushFrame (n : Nat) (s t : State) : Prop where
  sp : t.sp.toNat + n = s.sp.toNat
  stackFloor : t.stackFloor = s.stackFloor
  readByte : ∀ a, s.sp.toNat ≤ a → t.readByte a = s.readByte a

theorem pushByte_pushFrame {v : Byte} {s t : State} (h : pushByte v s = .ok t) : PushFrame 1 s t := by
  obtain ⟨hsp, _, rfl⟩ := pushByte_eq_ok h
  have hback : pushAddr s + 1 = s.sp.toNat := Nat.sub_add_cancel hsp
  exact ⟨by simp [hback], rfl, fun a ha => State.readByte_writeByte_ne (s.setSp _) (by omega) v⟩

theorem pushAll_pushFrame {vs : List Byte} {s t : State} (h : pushAll vs s = .ok t) : PushFrame vs.length s t := by
  induction vs generalizing s with
  | nil =>
    cases h
    exact ⟨rfl, rfl, fun _ _ => rfl⟩
  | cons v vs ih =>
    obtain ⟨u, hu, hrest⟩ := pushAll_cons_eq_ok_iff.1 h
    obtain ⟨hsp, hfloor, hread⟩ := pushByte_pushFrame hu
    obtain ⟨hsp', hfloor', hread'⟩ := ih hrest
    exact ⟨by rw [List.length_cons]; omega, hfloor'.trans hfloor,
      fun a ha => (hread' a (by omega)).trans (hread a ha)⟩

/-- The bytes pushed stand from the cell below the old sp downwards, in order. -/
theorem pushAll_readByte {vs : List Byte} {s t : State} (h : pushAll vs s = .ok t) {j : Nat} (hj : j < vs.length) :
    t.readByte (pushAddr s - j) = vs[j] := by
  induction vs generalizing s j with
  | nil => cases hj
  | cons v vs ih =>
    obtain ⟨u, hu, hrest⟩ := pushAll_cons_eq_ok_iff.1 h
    have hsp : u.sp.toNat = pushAddr s := Nat.eq_sub_of_add_eq (pushByte_pushFrame hu).sp
    cases j with
    | zero =>
      obtain ⟨_, _, rfl⟩ := pushByte_eq_ok hu
      exact ((pushAll_pushFrame hrest).readByte _ hsp.le).trans (State.readByte_writeByte_same _ _ v)
    | succ j =>
      have haddr : pushAddr s - (j + 1) = pushAddr u - j := by rw [← hsp, pushAddr]; omega
      rw [haddr]
      exact ih hrest (Nat.lt_of_succ_lt_succ hj)

/-- A sequence of bytes can be pushed exactly when there is room for it between STACK_FLOOR and sp. -/
theorem exists_pushAll_eq_ok_iff {vs : List Byte} {s : State} :
    (∃ t, pushAll vs s = .ok t) ↔ vs.length ≤ s.sp.toNat - s.stackFloor.toNat := by
  induction vs generalizing s with
  | nil => exact ⟨fun _ => Nat.zero_le _, fun _ => ⟨s, rfl⟩⟩
  | cons v vs ih =>
    simp only [pushAll_cons_eq_ok_iff, List.length_cons]
    constructor
    · rintro ⟨t, u, hu, hrest⟩
      have hroom := ih.1 ⟨t, hrest⟩
      obtain ⟨_, hfloor, _⟩ := pushByte_eq_ok hu
      have hframe := pushByte_pushFrame hu
      have hsp := hframe.sp
      rw [hframe.stackFloor] at hroom
      simp only [pushAddr] at hfloor
      omega
    · intro hle
      have hu := pushByte_of_floor_le (s := s) (by omega) (by rw [pushAddr]; omega) v
      have hframe := pushByte_pushFrame hu
      have hsp := hframe.sp
      obtain ⟨t, ht⟩ := ih.2 (by rw [hframe.stackFloor]; omega)
      exact ⟨t, _, hu, ht⟩

/-- Settles O38: the room from 0xF4 down to STACK_FLOOR; once it is used up, sp holds STACK_FLOOR, so a push collides, or
underflows at 0. -/
theorem stackCapacity : Obligations.StackCapacity := by
  intro s vs hs
  have hsp : s.sp.toNat = 0xF4 := by rw [hs]; rfl
  refine ⟨hsp ▸ exists_pushAll_eq_ok_iff, fun t h j hj => ?_, fun t v h hle hfull => ?_⟩
  · have haddr : pushAddr s = 0xF3 := by rw [pushAddr, hsp]
    exact haddr ▸ pushAll_readByte h hj
  · have hframe := pushAll_pushFrame h
    have ht : t.sp.toNat = s.stackFloor.toNat := by
      have hused := hframe.sp
      omega
    refine ⟨fun hpos => ?_, fun hzero => pushByte_of_sp_eq_zero (ht.trans hzero) v⟩
    have haddr : pushAddr t = s.stackFloor.toNat - 1 := by rw [pushAddr, ht]
    rw [← haddr]
    exact pushByte_of_lt_floor (ht ▸ hpos) (by rw [haddr, hframe.stackFloor]; omega) v

end Sys2Proof.Machine

/-! SUPPORT. The statements of 44_call_return.md, and the layer they rest on: what CALL and RET answer, and that a PC-setting
instruction commits its handler's state as it stands. -/

namespace Sys2Proof.Machine

/-! ### The PC-setting instructions (R89) -/

theorem afterHandler_of_setsPc {i : Instr} (hi : i.handler.setsPc = true) (pc : Byte) (t : State) :
    afterHandler i pc t = .ok t := by
  rw [afterHandler, if_pos hi, ite_self]

/-- A PC-setting instruction commits its handler's state, pc included (R89). -/
theorem exec_of_setsPc {i : Instr} {s t : State} (hi : i.handler.setsPc = true) (hpc : s.pc.toNat ≤ 253)
    (h : handle i s = .ok t) : exec i s = .next t := by
  rw [exec_eq_settle hpc, h, ok_bind, afterHandler_of_setsPc hi, settle]

/-- A PC-setting instruction that does not end FAULTED ends in its handler's state (R89, R90). -/
theorem handle_eq_ok_of_setsPc {i : Instr} {s t : State} (hi : i.handler.setsPc = true) (h : exec i s = .next t)
    (ht : t.status ≠ .faulted) : s.pc.toNat ≤ 253 ∧ handle i s = .ok t := by
  obtain ⟨hpc, u, hu, hafter⟩ := exec_eq_next_of_not_faulted h ht
  rw [afterHandler_of_setsPc hi] at hafter
  exact ⟨hpc, hu.trans hafter⟩

/-! ### CALL (R160) -/

/-- The return address fits in a byte wherever the operand fetch succeeds. -/
theorem returnAddr_toNat {s : State} (hpc : s.pc.toNat ≤ 253) : (returnAddr s).toNat = s.pc.toNat + 2 :=
  Nat.mod_eq_of_lt (show s.pc.toNat + 2 < 256 by omega)

theorem handle_call {a : Byte} {r : Fin 8} (h : a.toNat = r.val) (s : State) :
    handle (.call a) s = (pushByte (returnAddr s) s).map fun t => t.setPc (s.getReg r) := by
  rw [handle, handleCall, regIndex_eq_ok_of_toNat h]
  cases pushByte (returnAddr s) s <;> rfl

/-- What CALL's handler answers where it answers. -/
theorem handle_call_eq_ok {a : Byte} {s t : State} (h : handle (.call a) s = .ok t) :
    ∃ r : Fin 8, r.val = a.toNat ∧ 1 ≤ s.sp.toNat ∧ s.stackFloor.toNat ≤ pushAddr s ∧
      t = ((s.setSp (BitVec.ofNat 8 (pushAddr s))).writeByte (pushAddr s) (returnAddr s)).setPc (s.getReg r) := by
  simpa using handle_ok_cases h

/-- Settles O18: the index, then sp and STACK_FLOOR decide what the handler answers, and no advance follows. -/
theorem callRule : Obligations.CallRule := by
  intro a s
  refine ⟨fun _ => rfl, fun r ha hpc hsp hfloor => ?_, exec_of_pc_ge, exec_of_first_operand_gt rfl, fun hpc ha hsp => ?_,
    fun hpc ha hsp hlt => ?_⟩
  · have hexec := exec_of_setsPc rfl hpc (by rw [handle_call ha, pushByte_of_floor_le hsp hfloor]; rfl)
    refine ⟨_, hexec, pushAddr_mod_256 s, by simp [returnAddr_toNat hpc], fun n hn => ?_, rfl, rfl, rfl, rfl, rfl, rfl⟩
    exact State.readByte_writeByte_ne (s.setSp _) hn _
  · exact exec_of_handle_error hpc (by rw [handle_call (r := ⟨a.toNat, by omega⟩) rfl, pushByte_of_sp_eq_zero hsp]; rfl)
  · exact exec_of_handle_error hpc (by rw [handle_call (r := ⟨a.toNat, by omega⟩) rfl, pushByte_of_lt_floor hsp hlt]; rfl)

/-! ### RET (R161) -/

theorem handle_ret (s : State) : handle .ret s = (popByte s).map fun p => p.2.setPc p.1 := by
  rw [handle, handleRet]
  cases popByte s <;> rfl

/-- What RET's handler answers where it answers. -/
theorem handle_ret_eq_ok {s t : State} (h : handle .ret s = .ok t) :
    s.sp.toNat ≤ 254 ∧ t = (s.setSp (BitVec.ofNat 8 (s.sp.toNat + 1))).setPc (s.readByte s.sp.toNat) := by
  simpa using handle_ok_cases h

/-- Settles O19: sp alone decides what the handler answers, and no advance follows. -/
theorem retRule : Obligations.RetRule := by
  refine ⟨fun _ _ => rfl, fun s => ⟨fun hpc hsp => ?_, exec_of_pc_ge, fun hpc hsp => ?_⟩⟩
  · exact exec_of_setsPc rfl hpc (by rw [handle_ret, popByte_of_sp_le hsp]; rfl)
  · exact exec_of_handle_error hpc (by rw [handle_ret, popByte_of_sp_eq_255 hsp]; rfl)

/-! ### CALL, then RET (R162) -/

/-- Settles O37: RET reads the cell CALL wrote, which still holds the return address, and adds back the 1 CALL took from
sp. -/
theorem callRetRoundTrip : Obligations.CallRetRoundTrip := by
  intro s t u v a _ hcall ht hsp hcell _ hret hv
  obtain ⟨hpc, hcalled⟩ := handle_eq_ok_of_setsPc rfl hcall (by simp [ht])
  obtain ⟨_, hreturned⟩ := handle_eq_ok_of_setsPc rfl hret (by simp [hv])
  obtain ⟨r, _, hpos, _, rfl⟩ := handle_call_eq_ok hcalled
  obtain ⟨_, rfl⟩ := handle_ret_eq_ok hreturned
  have hback : pushAddr s + 1 = s.sp.toNat := Nat.sub_add_cancel hpos
  rw [hsp, hcell]
  exact ⟨by simp [returnAddr_toNat hpc], by simp [hback]⟩

end Sys2Proof.Machine

/-! SUPPORT. The statements of 60_exceptions.md: a fault entry is precise, and R184's list decides every running step. -/

namespace Sys2Proof.Machine

/-! ### The fault entry of a running step (R182, R184) -/

/-- A running step that ends FAULTED took the fault of the first check that fails: a commit ends RUNNING or HALTED. -/
theorem firstFault_of_step_faulted {s t : State} (hs : s.status = .running) (h : step s = .next t)
    (ht : t.status = .faulted) : ∃ r, firstFault s = some r ∧ t = faultEntry r s.fetchOpcode s := by
  rcases step_first_fault_or_commits hs h with hfault | ⟨_, _, _, hc⟩
  · exact hfault
  · exact absurd ht (hc.status_ne_faulted (by simp [hs]))

/-- Settles O31: the step took the fault entry of the first failing check, and a FAULTED core steps to itself. -/
theorem faultEntryIsPrecise : Obligations.FaultEntryIsPrecise := fun _ _ hs h ht =>
  ⟨firstFault_of_step_faulted hs h ht, runsTo_self_of_not_running (by simp [ht])⟩

/-- Settles O32: every step answers, and it faults or commits as R184's list has a failing check or none. -/
theorem firstFailingCheck : Obligations.FirstFailingCheck := by
  intro s hs
  obtain ⟨t, h⟩ := stepAlwaysAnswers s
  rcases step_first_fault_or_commits hs h with ⟨r, hr, rfl⟩ | ⟨hnone, _, _, hc⟩
  · refine ⟨fun r' hr' => ?_, fun hnone => ?_⟩
    · obtain rfl : r = r' := Option.some.inj (hr.symm.trans hr')
      exact h
    · simp [hr] at hnone
  · exact ⟨fun r hr => by simp [hnone] at hr, fun _ => ⟨t, h, hc.status_ne_faulted (by simp [hs]), hc.fault⟩⟩

end Sys2Proof.Machine

/-! SUPPORT. The statements of 70_reset_and_hazards.md, and the layer they rest on: what the image writes of the boot leave
in memory, and runs put end to end. -/

namespace Sys2Proof.Machine

/-! ### Host actions and the invariant (R214) -/

/-- While the core has not faulted, the invariant says nothing of pc or the bytes there. -/
theorem State.Inv.of_not_faulted {s : State} (hstatus : s.status ≠ .faulted) (hmem : Memory.wf s.mem)
    (hfloor : s.stackFloor.toNat ≤ 256) (hfault : s.fault = FaultRecord.zero) : s.Inv where
  mem_wf := hmem
  floor_le := hfloor
  fault_zero _ := hfault
  fault_tabled e := absurd e hstatus
  fault_at_pc e := absurd e hstatus

/-- STACK_FLOOR's nine bits hold every floor the host may write (R29). -/
theorem toNat_ofNat_floor {l : Nat} (h : l ≤ 256) : (BitVec.ofNat 9 l).toNat = l := by
  rw [BitVec.toNat_ofNat, Nat.mod_eq_of_lt (by omega)]

/-- Settles O44: an action is a Reset, changes nothing, or is taken in RESET, where the fault record is zero and stays so. -/
theorem hostActionKeepsInv : Obligations.HostActionKeepsInv := by
  intro act s t hs h
  rcases hostAct_cases h with ⟨x, _, rfl⟩ | ⟨_, hr, rfl⟩ | ⟨_, _, rfl⟩ | ⟨a, v, _, hr, rfl⟩ | ⟨l, _, hr, hl, rfl⟩
  · exact .of_not_faulted nofun hs.mem_wf (by decide : (0 : BitVec 9).toNat ≤ 256) rfl
  · exact .of_not_faulted nofun hs.mem_wf hs.floor_le (hs.fault_zero (by simp [hr]))
  · exact hs
  · exact .of_not_faulted (by simp [hr]) (Memory.write_wf a.isLt hs.mem_wf) hs.floor_le (hs.fault_zero (by simp [hr]))
  · exact .of_not_faulted (by simp [hr]) hs.mem_wf (by simpa [toNat_ofNat_floor hl] using hl) (hs.fault_zero (by simp [hr]))

/-! ### The boot sequence (R211, R212) -/

/-- Memory after the load-port writes of an image at `a` and up: what `imageWrites` leaves (`hostActs_imageWrites`). -/
def Memory.writeImage (a : Nat) : List Byte → Memory → Memory
  | [], m => m
  | v :: rest, m => Memory.writeImage (a + 1) rest (Memory.write a v m)

theorem Memory.read_writeImage_outside {a n : Nat} (image : List Byte) (m : Memory) (h : n < a ∨ a + image.length ≤ n) :
    Memory.read (Memory.writeImage a image m) n = Memory.read m n := by
  induction image generalizing a m with
  | nil => rfl
  | cons v rest ih =>
    rw [List.length_cons] at h
    rw [Memory.writeImage, ih _ (by omega), Memory.read_write_ne (by omega)]

theorem Memory.read_writeImage_inside (a : Nat) (image : List Byte) (m : Memory) {k : Nat} (h : k < image.length) :
    Memory.read (Memory.writeImage a image m) (a + k) = image[k] := by
  induction image generalizing a m k with
  | nil => cases h
  | cons v rest ih =>
    cases k with
    | zero => exact (Memory.read_writeImage_outside rest _ (by omega)).trans (Memory.read_write_same a v m)
    | succ k =>
      have hk : a + (k + 1) = a + 1 + k := by omega
      rw [hk, Memory.writeImage, ih, List.getElem_cons_succ]

/-- Each action acts on what the one before it answered. -/
theorem hostActs_cons_of_act {act : HostAction} {s t : State} (h : hostAct act s = some t) (acts : List HostAction) :
    hostActs (act :: acts) s = hostActs acts t := by
  rw [hostActs, h, Option.bind_some]

theorem hostAct_writeByte {s : State} (hs : s.status = .reset) (a v : Byte) :
    hostAct (.writeByte a v) s = some (s.writeByte a.toNat v) :=
  if_pos hs

theorem hostAct_writeStackFloor {s : State} (hs : s.status = .reset) {l : Nat} (hl : l ≤ 256) :
    hostAct (.writeStackFloor l) s = some (s.setStackFloor (BitVec.ofNat 9 l)) :=
  if_pos ⟨hs, hl⟩

theorem hostAct_start {s : State} (hs : s.status = .reset) : hostAct .start s = some (s.setStatus .running) := by
  rw [hostAct, hs]

/-- The image writes change memory alone, and the actions after them go on from there. -/
theorem hostActs_imageWrites_append {a : Nat} {image : List Byte} {s : State} (hs : s.status = .reset)
    (h : a + image.length ≤ 256) (acts : List HostAction) :
    hostActs (imageWrites a image ++ acts) s = hostActs acts { s with mem := Memory.writeImage a image s.mem } := by
  induction image generalizing a s with
  | nil => rfl
  | cons v rest ih =>
    rw [List.length_cons] at h
    have ha : (BitVec.ofNat 8 a).toNat = a := by rw [BitVec.toNat_ofNat, Nat.mod_eq_of_lt (by omega)]
    rw [imageWrites, List.cons_append, hostActs_cons_of_act (hostAct_writeByte hs _ v), ha, ih (by exact hs) (by omega)]
    rfl

/-- What a boot answers for an image that fits: the reset state with the image written, STACK_FLOOR its length, running. -/
theorem boot_eq_some {image : List Byte} (h : image.length ≤ 256) (x : Vector Byte 8) (s : State) :
    boot x image s =
      some (({ hostReset x s with mem := Memory.writeImage 0 image s.mem }.setStackFloor
        (BitVec.ofNat 9 image.length)).setStatus .running) := by
  rw [boot, if_neg (by omega), List.cons_append, hostActs_cons_of_act rfl, hostActs_imageWrites_append rfl (by omega),
    hostActs_cons_of_act (hostAct_writeStackFloor rfl h), hostActs_cons_of_act (hostAct_start rfl)]
  rfl

/-- Settles O45: the state a boot answers, read field by field; its memory holds the image at 0.. and the earlier bytes
elsewhere. -/
theorem bootLoadsTheImage : Obligations.BootLoadsTheImage := by
  refine fun x image s => ⟨fun h => if_pos h, fun h => ⟨_, boot_eq_some h x s, rfl, rfl, rfl, rfl, rfl, rfl,
    toNat_ofNat_floor h, fun k hk => ?_, fun n hn => ?_, fun h0 => ?_⟩⟩
  · have hread := Memory.read_writeImage_inside 0 image s.mem hk
    rwa [Nat.zero_add] at hread
  · exact Memory.read_writeImage_outside image s.mem (by omega)
  · exact Memory.read_writeImage_inside 0 image s.mem h0

/-! ### The end of a run (R192, R215) -/

theorem State.ended_iff (s : State) : s.ended = true ↔ s.status = .halted ∨ s.status = .faulted := by
  simp [State.ended]

theorem State.status_ne_running_of_ended {s : State} (h : s.ended = true) : s.status ≠ .running := by
  rcases s.ended_iff.1 h with e | e <;> simp [e]

/-- Two runs put end to end are one run. -/
theorem runsTo_add {k n : Nat} {s t u : State} (hst : runsTo k s t) (htu : runsTo n t u) : runsTo (k + n) s u := by
  induction k generalizing s with
  | zero =>
    obtain rfl : s = t := Host.Outcome.next.inj hst
    rwa [Nat.zero_add]
  | succ k ih =>
    obtain ⟨w, hw⟩ := stepAlwaysAnswers s
    rw [Nat.succ_add]
    exact (run_succ_of_step (M := Sys2Proof.core) hw _).trans
      (ih ((run_succ_of_step (M := Sys2Proof.core) hw k).symm.trans hst))

/-- The end of a run comes no later than any ended state of it. -/
theorem endsAt_le_of_ended {k k' : Nat} {s t t' : State} (h : endsAt k s t) (hrun : runsTo k' s t')
    (hend : t'.ended = true) : k ≤ k' := by
  obtain ⟨_, _, hfirst⟩ := h
  refine Nat.le_of_not_lt fun hlt => ?_
  rw [hfirst k' t' hlt hrun] at hend
  cases hend

theorem endsAt_unique {k k' : Nat} {s t t' : State} (h : endsAt k s t) (h' : endsAt k' s t') : k = k' ∧ t = t' := by
  have ⟨hrun, hend, _⟩ := h
  have ⟨hrun', hend', _⟩ := h'
  obtain rfl : k = k' := Nat.le_antisymm (endsAt_le_of_ended h hrun' hend') (endsAt_le_of_ended h' hrun hend)
  exact ⟨rfl, Host.Outcome.next.inj (hrun.symm.trans hrun')⟩

/-- Settles O47: the first ended state comes after one number of steps, holds what the observation tells, and steps to
itself. -/
theorem endOfRunIsUnique : Obligations.EndOfRunIsUnique := by
  refine ⟨fun _ _ _ _ _ => endsAt_unique, fun s t k ⟨hrun, hend, _⟩ => ⟨⟨_, if_pos hend, rfl, rfl, rfl, rfl, rfl, rfl,
    fun n => t.getElem?_cells⟩, fun n => ?_⟩⟩
  exact runsTo_add hrun (runsTo_self_of_not_running (State.status_ne_running_of_ended hend) n)

/-! ### What the host may do and read (R214) -/

theorem hostAct_writeByte_eq_none {s : State} (h : s.status ≠ .reset) (a v : Byte) : hostAct (.writeByte a v) s = none :=
  if_neg h

/-- The load port takes floors in RESET alone, and only up to 256 (log entry 6). -/
theorem hostAct_writeStackFloor_eq_none {s : State} {l : Nat} (h : ¬(s.status = .reset ∧ l ≤ 256)) :
    hostAct (.writeStackFloor l) s = none :=
  if_neg h

/-- Every meaningful action but Reset is taken in RESET, or after the end of a run, where it changes nothing. -/
theorem hostAct_reset_or_loading_or_idle {act : HostAction} {s t : State} (h : hostAct act s = some t) :
    (∃ x, act = .reset x) ∨ s.status = .reset ∨ (s.ended = true ∧ t = s) := by
  rcases hostAct_cases h with ⟨x, e, _⟩ | ⟨_, hr, _⟩ | ⟨_, hend, e⟩ | ⟨_, _, _, hr, _⟩ | ⟨_, _, hr, _⟩
  · exact .inl ⟨x, e⟩
  · exact .inr (.inl hr)
  · exact .inr (.inr ⟨hend, e⟩)
  · exact .inr (.inl hr)
  · exact .inr (.inl hr)

/-- While RUNNING the host may read the output log, STATUS and the fault record (log entry 9). -/
theorem hostRead_of_running {s : State} (h : s.status = .running) (item : HostItem) :
    hostRead item s =
      if item ∈ [HostItem.outputLog, .status, .faultRecord] then some (s.hostValue item) else none := by
  simp [hostRead, h, hostMayRead]

/-- Settles O46: the accepted load-port writes and their effect, the control states in which an action has a meaning, and what
a read answers. -/
theorem hostActionsAsTabled : Obligations.HostActionsAsTabled := by
  refine ⟨fun s hs => ⟨fun a v => ?_, fun l hl => ?_⟩, fun act s t hs h => ?_, fun act s t hend h => ?_, fun s hs => ?_,
    fun s l hl => ?_, fun s item => ⟨fun h => ?_, fun h => hostRead_of_running h item⟩, fun s => ?_⟩
  · exact ⟨_, hostAct_writeByte hs a v, s.readByte_writeByte_same _ v, fun n hn => s.readByte_writeByte_ne hn v, rfl⟩
  · exact ⟨_, hostAct_writeStackFloor hs hl, toNat_ofNat_floor hl, rfl⟩
  · rcases hostAct_reset_or_loading_or_idle h with e | e | ⟨e, _⟩
    · exact e
    · simp [hs] at e
    · exact absurd hs (State.status_ne_running_of_ended e)
  · rcases hostAct_reset_or_loading_or_idle h with e | e | ⟨_, e⟩
    · exact .inl e
    · simp [State.ended, e] at hend
    · exact .inr e
  · exact ⟨hostAct_writeByte_eq_none hs, fun l => hostAct_writeStackFloor_eq_none fun h => hs h.1⟩
  · exact hostAct_writeStackFloor_eq_none fun h => Nat.not_le.2 hl h.2
  · rcases h with h | h
    · exact hostRead_of_ended h item
    · exact hostRead_eq_some_iff.2 ⟨by rw [h]; rfl, rfl⟩
  · exact ⟨rfl, rfl, rfl, rfl, rfl, rfl, rfl, s.cells, rfl, s.length_cells, fun n => s.getElem?_cells⟩

end Sys2Proof.Machine

/-! SUPPORT. Which operand bytes the decoder looks at: the first `operandCount ir` of the two (30_encoding.md, R72). -/

namespace Sys2Proof

/-- Operand bytes that agree as far as the opcode byte counts them decode alike, legal opcode or not (R67, R72). -/
theorem decode_congr {ir a b a' b' : Byte} (h : [a, b].take (operandCount ir) = [a', b'].take (operandCount ir)) :
    decode ir a b = decode ir a' b' := by
  cases hd : dispatch ir with
  | none => rw [decode_eq_error_iff.2 hd, decode_eq_error_iff.2 hd]
  | some k =>
    have hi : decode ir a b = .ok (k.assemble a b) := by simp [decode, hd]
    have hlen : (k.assemble a b).length = operandCount ir + 1 := by rw [Instr.length, ← (decode_eq_ok hi).1]
    rw [hi, eq_comm, decode_eq_ok_iff, decode_eq_ok_iff.1 hi, hlen, List.take_succ_cons, List.take_succ_cons, h]

/-- Settles O7: with count 1 the operand bytes agree in the first byte, with count 0 there is none to compare. -/
theorem unusedOperandBytesIgnored : Obligations.UnusedOperandBytesIgnored :=
  ⟨fun _ _ _ _ h => decode_congr (by simp [h]), fun _ _ _ _ _ h => decode_congr (by simp [h])⟩

end Sys2Proof
